-- ==== Sys2Proof/Word.lean ====
section
/-! DEFINITION. The word types of the machine: the widths of `00_scope.md` R4 and R9. -/

namespace Sys2Proof

/-- An 8-bit value: a general register, a timer, a memory byte, an immediate `kk` (R4, `XLEN`). -/
abbrev Byte := BitVec 8

/-- A 16-bit value: `I`, `pc`, a stack entry, an instruction word (R4, `ILEN`, `PCLEN`, `INSTLEN`). -/
abbrev Word := BitVec 16

/-- A 4-bit operand field: a register number `x` or `y`, or a row count `n` (R93). -/
abbrev Nibble := BitVec 4

/-- A 12-bit operand field `nnn` (R93). -/
abbrev Addr12 := BitVec 12

/-- One framebuffer row: 64 pixels of one bit. Column `c` is bit `63 - c`, so that the row, written in
binary, reads in column order (R33; which corner is shown where is outside the block, N8). -/
abbrev PixelRow := BitVec 64

end Sys2Proof
end

