-- ==== Sys2Proof/Config.lean ====
section
/-! DEFINITION. What the spec leaves open and the model takes as given: the random source. (Of the other two open
parameters of the spec, `FONT` is an argument of `Sys2Proof.Machine.State.resetWith`, and `END_OF_RUN` is held at its
default, `Sys2Proof.Safety.endOfRun`. The fixed constants of `00_scope.md` R4 stand in the definitions that use them.) -/

namespace Sys2Proof

/-- FREE VALUE. The value number `k` that the random source supplies, counting from 0 (`43_random.md` R191: the whole
sequence `Nat -> Byte` as a parameter of the run). It has no body: nothing can be proved of which value a draw gives.
Log entry 1. -/
opaque Config.randomByte : Nat → Byte

end Sys2Proof
end

