-- ==== Sys2Proof/Syntax.lean ====
section
/-! DEFINITION. The 34 instructions, one constructor per row of `spec/opcode_table.json` (`30_encoding.md` R97,
R106), in the table's order, each carrying that row's operand fields (R92 to R94). -/

namespace Sys2Proof

/-- A decoded instruction. The operand types are the fields' own widths, so every value is legal (R93). -/
inductive Instr where
  /-- `00E0` CLS (R196) -/
  | cls
  /-- `00EE` RET (R120) -/
  | ret
  /-- `1nnn` JP nnn (R121) -/
  | jp (nnn : Addr12)
  /-- `2nnn` CALL nnn (R122) -/
  | call (nnn : Addr12)
  /-- `3xkk` SE Vx,kk (R123) -/
  | seVxKk (x : Nibble) (kk : Byte)
  /-- `4xkk` SNE Vx,kk (R124) -/
  | sneVxKk (x : Nibble) (kk : Byte)
  /-- `5xy0` SE Vx,Vy (R125) -/
  | seVxVy (x y : Nibble)
  /-- `6xkk` LD Vx,kk (R140) -/
  | ldVxKk (x : Nibble) (kk : Byte)
  /-- `7xkk` ADD Vx,kk (R141) -/
  | addVxKk (x : Nibble) (kk : Byte)
  /-- `8xy0` LD Vx,Vy (R143) -/
  | ldVxVy (x y : Nibble)
  /-- `8xy1` OR Vx,Vy (R144) -/
  | orVxVy (x y : Nibble)
  /-- `8xy2` AND Vx,Vy (R145) -/
  | andVxVy (x y : Nibble)
  /-- `8xy3` XOR Vx,Vy (R146) -/
  | xorVxVy (x y : Nibble)
  /-- `8xy4` ADD Vx,Vy (R147) -/
  | addVxVy (x y : Nibble)
  /-- `8xy5` SUB Vx,Vy (R148) -/
  | subVxVy (x y : Nibble)
  /-- `8xy6` SHR Vx (R149); the `y` field is decoded and ignored -/
  | shrVx (x y : Nibble)
  /-- `8xy7` SUBN Vx,Vy (R150) -/
  | subnVxVy (x y : Nibble)
  /-- `8xyE` SHL Vx (R151); the `y` field is decoded and ignored -/
  | shlVx (x y : Nibble)
  /-- `9xy0` SNE Vx,Vy (R126) -/
  | sneVxVy (x y : Nibble)
  /-- `Annn` LD I,nnn (R170) -/
  | ldINnn (nnn : Addr12)
  /-- `Bnnn` JP V0,nnn (R127) -/
  | jpV0Nnn (nnn : Addr12)
  /-- `Cxkk` RND Vx,kk (R190) -/
  | rndVxKk (x : Nibble) (kk : Byte)
  /-- `Dxyn` DRW Vx,Vy,n (R197) -/
  | drwVxVyN (x y n : Nibble)
  /-- `Ex9E` SKP Vx (R210) -/
  | skpVx (x : Nibble)
  /-- `ExA1` SKNP Vx (R211) -/
  | sknpVx (x : Nibble)
  /-- `Fx07` LD Vx,DT (R212) -/
  | ldVxDT (x : Nibble)
  /-- `Fx0A` LD Vx,K (R213) -/
  | ldVxK (x : Nibble)
  /-- `Fx15` LD DT,Vx (R214) -/
  | ldDTVx (x : Nibble)
  /-- `Fx18` LD ST,Vx (R215) -/
  | ldSTVx (x : Nibble)
  /-- `Fx1E` ADD I,Vx (R171) -/
  | addIVx (x : Nibble)
  /-- `Fx29` LD F,Vx (R172) -/
  | ldFVx (x : Nibble)
  /-- `Fx33` LD B,Vx (R173) -/
  | ldBVx (x : Nibble)
  /-- `Fx55` LD [I],Vx (R174) -/
  | ldIndVx (x : Nibble)
  /-- `Fx65` LD Vx,[I] (R175) -/
  | ldVxInd (x : Nibble)
  deriving DecidableEq, Repr

/-- The decoder's answer: one of the 34 instructions, or an undefined word with its raw 16 bits (R101, R106). -/
inductive Decoded where
  | instr (i : Instr)
  | undefined (iw : Word)
  deriving DecidableEq, Repr

end Sys2Proof
end

