-- ==== Sys2Proof/Decode.lean ====
section
/-! DEFINITION. The fields of an instruction word, the two-level decoder, the encoder, and the opcode map
(`30_encoding.md` R94 to R101). -/

namespace Sys2Proof

/-! ### Fields (R94) -/

/-- `iw[15:12]` -/
def family (iw : Word) : Nibble := iw.extractLsb' 12 4

/-- `x = iw[11:8]` -/
def fieldX (iw : Word) : Nibble := iw.extractLsb' 8 4

/-- `y = iw[7:4]` -/
def fieldY (iw : Word) : Nibble := iw.extractLsb' 4 4

/-- `n = iw[3:0]`, also the sub-selector of families 0x0, 0x8 and 0xE (R96) -/
def fieldN (iw : Word) : Nibble := iw.extractLsb' 0 4

/-- `kk = iw[7:0]`, also the sub-selector of family 0xF (R96) -/
def fieldKk (iw : Word) : Byte := iw.extractLsb' 0 8

/-- `nnn = iw[11:0]` -/
def fieldNnn (iw : Word) : Addr12 := iw.extractLsb' 0 12

/-! ### Words from their parts (R66, R92, R94) -/

/-- Formats NONE and NNN: the family and twelve bits. -/
def wordNnn (f : Nibble) (nnn : Addr12) : Word := (f ++ nnn : BitVec (4 + 12))

/-- Formats XKK and X: the family, `x`, and the low byte. -/
def wordXkk (f x : Nibble) (kk : Byte) : Word := (f ++ x ++ kk : BitVec (4 + 4 + 8))

/-- Formats XY and XYN: the family, `x`, `y`, and the low nibble. -/
def wordXyn (f x y n : Nibble) : Word := (f ++ x ++ y ++ n : BitVec (4 + 4 + 4 + 4))

/-- Two bytes as memory holds an instruction: the byte at the lower address is bits 15..8 (R66, R67). -/
def wordOfBytes (hi lo : Byte) : Word := (hi ++ lo : BitVec (8 + 8))

/-- The byte of a word that memory holds at the lower address. -/
def highByte (iw : Word) : Byte := iw.extractLsb' 8 8

/-- The byte of a word that memory holds at the higher address. -/
def lowByte (iw : Word) : Byte := iw.extractLsb' 0 8

/-! ### Second level (R96, R97) -/

/-- Family 0x0, by the low nibble; bits 11..4 are not examined. -/
def decodeFamily0 (iw : Word) : Decoded :=
  match fieldN iw with
  | 0x0#4 => .instr .cls
  | 0xE#4 => .instr .ret
  | _ => .undefined iw

/-- Family 0x8, by the low nibble. -/
def decodeFamily8 (iw : Word) : Decoded :=
  match fieldN iw with
  | 0x0#4 => .instr (.ldVxVy (fieldX iw) (fieldY iw))
  | 0x1#4 => .instr (.orVxVy (fieldX iw) (fieldY iw))
  | 0x2#4 => .instr (.andVxVy (fieldX iw) (fieldY iw))
  | 0x3#4 => .instr (.xorVxVy (fieldX iw) (fieldY iw))
  | 0x4#4 => .instr (.addVxVy (fieldX iw) (fieldY iw))
  | 0x5#4 => .instr (.subVxVy (fieldX iw) (fieldY iw))
  | 0x6#4 => .instr (.shrVx (fieldX iw) (fieldY iw))
  | 0x7#4 => .instr (.subnVxVy (fieldX iw) (fieldY iw))
  | 0xE#4 => .instr (.shlVx (fieldX iw) (fieldY iw))
  | _ => .undefined iw

/-- Family 0xE, by the low nibble; bits 7..4 are not examined. -/
def decodeFamilyE (iw : Word) : Decoded :=
  match fieldN iw with
  | 0xE#4 => .instr (.skpVx (fieldX iw))
  | 0x1#4 => .instr (.sknpVx (fieldX iw))
  | _ => .undefined iw

/-- Family 0xF, by the low byte. -/
def decodeFamilyF (iw : Word) : Decoded :=
  match fieldKk iw with
  | 0x07#8 => .instr (.ldVxDT (fieldX iw))
  | 0x0A#8 => .instr (.ldVxK (fieldX iw))
  | 0x15#8 => .instr (.ldDTVx (fieldX iw))
  | 0x18#8 => .instr (.ldSTVx (fieldX iw))
  | 0x1E#8 => .instr (.addIVx (fieldX iw))
  | 0x29#8 => .instr (.ldFVx (fieldX iw))
  | 0x33#8 => .instr (.ldBVx (fieldX iw))
  | 0x55#8 => .instr (.ldIndVx (fieldX iw))
  | 0x65#8 => .instr (.ldVxInd (fieldX iw))
  | _ => .undefined iw

/-! ### First level (R95) -/

/-- The decoder: total, and decided by the (family, sub-selector) pair and nothing else (R96, R99). A word that
matches no row is answered as undefined, by name, with its raw bits (R101). -/
def decodeWord (iw : Word) : Decoded :=
  match family iw with
  | 0x0#4 => decodeFamily0 iw
  | 0x1#4 => .instr (.jp (fieldNnn iw))
  | 0x2#4 => .instr (.call (fieldNnn iw))
  | 0x3#4 => .instr (.seVxKk (fieldX iw) (fieldKk iw))
  | 0x4#4 => .instr (.sneVxKk (fieldX iw) (fieldKk iw))
  | 0x5#4 => .instr (.seVxVy (fieldX iw) (fieldY iw))
  | 0x6#4 => .instr (.ldVxKk (fieldX iw) (fieldKk iw))
  | 0x7#4 => .instr (.addVxKk (fieldX iw) (fieldKk iw))
  | 0x8#4 => decodeFamily8 iw
  | 0x9#4 => .instr (.sneVxVy (fieldX iw) (fieldY iw))
  | 0xA#4 => .instr (.ldINnn (fieldNnn iw))
  | 0xB#4 => .instr (.jpV0Nnn (fieldNnn iw))
  | 0xC#4 => .instr (.rndVxKk (fieldX iw) (fieldKk iw))
  | 0xD#4 => .instr (.drwVxVyN (fieldX iw) (fieldY iw) (fieldN iw))
  | 0xE#4 => decodeFamilyE iw
  | _ => decodeFamilyF iw -- the one nibble left: 0xF

/-- The instruction in two bytes as memory holds them, high byte first (R67, R91). -/
def decodeBytes (hi lo : Byte) : Decoded := decodeWord (wordOfBytes hi lo)

/-! ### The encoder: canonical words only (R97, R98) -/

/-- The canonical word of an instruction: every bit the decoder does not examine is as the source's pattern shows. -/
def encode : Instr → Word
  | .cls => wordNnn 0x0#4 0x0E0#12
  | .ret => wordNnn 0x0#4 0x0EE#12
  | .jp nnn => wordNnn 0x1#4 nnn
  | .call nnn => wordNnn 0x2#4 nnn
  | .seVxKk x kk => wordXkk 0x3#4 x kk
  | .sneVxKk x kk => wordXkk 0x4#4 x kk
  | .seVxVy x y => wordXyn 0x5#4 x y 0x0#4
  | .ldVxKk x kk => wordXkk 0x6#4 x kk
  | .addVxKk x kk => wordXkk 0x7#4 x kk
  | .ldVxVy x y => wordXyn 0x8#4 x y 0x0#4
  | .orVxVy x y => wordXyn 0x8#4 x y 0x1#4
  | .andVxVy x y => wordXyn 0x8#4 x y 0x2#4
  | .xorVxVy x y => wordXyn 0x8#4 x y 0x3#4
  | .addVxVy x y => wordXyn 0x8#4 x y 0x4#4
  | .subVxVy x y => wordXyn 0x8#4 x y 0x5#4
  | .shrVx x y => wordXyn 0x8#4 x y 0x6#4
  | .subnVxVy x y => wordXyn 0x8#4 x y 0x7#4
  | .shlVx x y => wordXyn 0x8#4 x y 0xE#4
  | .sneVxVy x y => wordXyn 0x9#4 x y 0x0#4
  | .ldINnn nnn => wordNnn 0xA#4 nnn
  | .jpV0Nnn nnn => wordNnn 0xB#4 nnn
  | .rndVxKk x kk => wordXkk 0xC#4 x kk
  | .drwVxVyN x y n => wordXyn 0xD#4 x y n
  | .skpVx x => wordXkk 0xE#4 x 0x9E#8
  | .sknpVx x => wordXkk 0xE#4 x 0xA1#8
  | .ldVxDT x => wordXkk 0xF#4 x 0x07#8
  | .ldVxK x => wordXkk 0xF#4 x 0x0A#8
  | .ldDTVx x => wordXkk 0xF#4 x 0x15#8
  | .ldSTVx x => wordXkk 0xF#4 x 0x18#8
  | .addIVx x => wordXkk 0xF#4 x 0x1E#8
  | .ldFVx x => wordXkk 0xF#4 x 0x29#8
  | .ldBVx x => wordXkk 0xF#4 x 0x33#8
  | .ldIndVx x => wordXkk 0xF#4 x 0x55#8
  | .ldVxInd x => wordXkk 0xF#4 x 0x65#8

/-- The two bytes of a canonical word in memory order, high byte first (R67, R91). -/
def encodeBytes (i : Instr) : Byte × Byte :=
  (highByte (encode i), lowByte (encode i))

/-! ### The opcode map (R97) -/

/-- One row of R97: `iw` is the row's instruction exactly when `iw and mask = bits`; `build` is the instruction with
the row's operand fields taken from `iw` (R94). -/
structure OpcodeRow where
  mask : Word
  bits : Word
  build : Word → Instr

/-- The 34 rows of R97, in the table's order. -/
def opcodeMap : List OpcodeRow :=
  [⟨0xF00F, 0x0000, fun _ => .cls⟩,
   ⟨0xF00F, 0x000E, fun _ => .ret⟩,
   ⟨0xF000, 0x1000, fun iw => .jp (fieldNnn iw)⟩,
   ⟨0xF000, 0x2000, fun iw => .call (fieldNnn iw)⟩,
   ⟨0xF000, 0x3000, fun iw => .seVxKk (fieldX iw) (fieldKk iw)⟩,
   ⟨0xF000, 0x4000, fun iw => .sneVxKk (fieldX iw) (fieldKk iw)⟩,
   ⟨0xF000, 0x5000, fun iw => .seVxVy (fieldX iw) (fieldY iw)⟩,
   ⟨0xF000, 0x6000, fun iw => .ldVxKk (fieldX iw) (fieldKk iw)⟩,
   ⟨0xF000, 0x7000, fun iw => .addVxKk (fieldX iw) (fieldKk iw)⟩] ++
  [⟨0xF00F, 0x8000, fun iw => .ldVxVy (fieldX iw) (fieldY iw)⟩,
   ⟨0xF00F, 0x8001, fun iw => .orVxVy (fieldX iw) (fieldY iw)⟩,
   ⟨0xF00F, 0x8002, fun iw => .andVxVy (fieldX iw) (fieldY iw)⟩,
   ⟨0xF00F, 0x8003, fun iw => .xorVxVy (fieldX iw) (fieldY iw)⟩,
   ⟨0xF00F, 0x8004, fun iw => .addVxVy (fieldX iw) (fieldY iw)⟩,
   ⟨0xF00F, 0x8005, fun iw => .subVxVy (fieldX iw) (fieldY iw)⟩,
   ⟨0xF00F, 0x8006, fun iw => .shrVx (fieldX iw) (fieldY iw)⟩,
   ⟨0xF00F, 0x8007, fun iw => .subnVxVy (fieldX iw) (fieldY iw)⟩,
   ⟨0xF00F, 0x800E, fun iw => .shlVx (fieldX iw) (fieldY iw)⟩] ++
  [⟨0xF000, 0x9000, fun iw => .sneVxVy (fieldX iw) (fieldY iw)⟩,
   ⟨0xF000, 0xA000, fun iw => .ldINnn (fieldNnn iw)⟩,
   ⟨0xF000, 0xB000, fun iw => .jpV0Nnn (fieldNnn iw)⟩,
   ⟨0xF000, 0xC000, fun iw => .rndVxKk (fieldX iw) (fieldKk iw)⟩,
   ⟨0xF000, 0xD000, fun iw => .drwVxVyN (fieldX iw) (fieldY iw) (fieldN iw)⟩,
   ⟨0xF00F, 0xE00E, fun iw => .skpVx (fieldX iw)⟩,
   ⟨0xF00F, 0xE001, fun iw => .sknpVx (fieldX iw)⟩] ++
  [⟨0xF0FF, 0xF007, fun iw => .ldVxDT (fieldX iw)⟩,
   ⟨0xF0FF, 0xF00A, fun iw => .ldVxK (fieldX iw)⟩,
   ⟨0xF0FF, 0xF015, fun iw => .ldDTVx (fieldX iw)⟩,
   ⟨0xF0FF, 0xF018, fun iw => .ldSTVx (fieldX iw)⟩,
   ⟨0xF0FF, 0xF01E, fun iw => .addIVx (fieldX iw)⟩,
   ⟨0xF0FF, 0xF029, fun iw => .ldFVx (fieldX iw)⟩,
   ⟨0xF0FF, 0xF033, fun iw => .ldBVx (fieldX iw)⟩,
   ⟨0xF0FF, 0xF055, fun iw => .ldIndVx (fieldX iw)⟩,
   ⟨0xF0FF, 0xF065, fun iw => .ldVxInd (fieldX iw)⟩]

/-! ### The opcode table's numbering -/

/-- The instruction the decoder reads from a word numbered as `spec/opcode_table.json` numbers it (bit 0 the least
significant; bits at and above `nbits` zero), laid out as memory holds it. `none` where the decoder answers
undefined, or where `nbits` is longer than an instruction. -/
def decodeTableWord (nbits w : Nat) : Option Instr :=
  if nbits ≤ 16 then
    let iw : Word := BitVec.ofNat 16 (w % 2 ^ nbits)
    match decodeBytes (highByte iw) (lowByte iw) with
    | .instr i => some i
    | .undefined _ => none
  else none

end Sys2Proof
end

