-- ==== Sys2Proof/Machine/Font.lean ====
section
/-! DEFINITION. `FONT`, the parameter of 80 bytes that `Reset` loads (`00_scope.md` R5; `10_state.md` R36): its type, and
the default value the spec gives. The machine takes it as an argument: `State.resetWith` (Machine/State.lean). -/

namespace Sys2Proof.Machine

/-- The values the parameter `FONT` can take (R5): any 80 bytes, glyph `d` at `5 * d .. 5 * d + 4` (R36). -/
abbrev Font := Vector Byte 80

/-- The default of `FONT` (the table of R36), digit by digit, five bytes each. PRESUMED: the spec marks these bytes as
general knowledge (G1); log entry 2. -/
def defaultFont : Font :=
  ⟨List.toArray (
    [0xF0#8, 0x90#8, 0x90#8, 0x90#8, 0xF0#8] ++ [0x20#8, 0x60#8, 0x20#8, 0x20#8, 0x70#8] ++
    [0xF0#8, 0x10#8, 0xF0#8, 0x80#8, 0xF0#8] ++ [0xF0#8, 0x10#8, 0xF0#8, 0x10#8, 0xF0#8] ++
    [0x90#8, 0x90#8, 0xF0#8, 0x10#8, 0x10#8] ++ [0xF0#8, 0x80#8, 0xF0#8, 0x10#8, 0xF0#8] ++
    [0xF0#8, 0x80#8, 0xF0#8, 0x90#8, 0xF0#8] ++ [0xF0#8, 0x10#8, 0x20#8, 0x40#8, 0x40#8] ++
    [0xF0#8, 0x90#8, 0xF0#8, 0x90#8, 0xF0#8] ++ [0xF0#8, 0x90#8, 0xF0#8, 0x10#8, 0xF0#8] ++
    [0xF0#8, 0x90#8, 0xF0#8, 0x90#8, 0x90#8] ++ [0xE0#8, 0x90#8, 0xE0#8, 0x90#8, 0xE0#8] ++
    [0xF0#8, 0x80#8, 0x80#8, 0x80#8, 0xF0#8] ++ [0xE0#8, 0x90#8, 0x90#8, 0x90#8, 0xE0#8] ++
    [0xF0#8, 0x80#8, 0xF0#8, 0x80#8, 0xF0#8] ++ [0xF0#8, 0x80#8, 0xF0#8, 0x80#8, 0x80#8]), rfl⟩

end Sys2Proof.Machine
end

