-- ==== Sys2Proof/Machine/State.lean ====
section
/-! DEFINITION. The state of the machine (`10_state.md`), the reasons a step can stop, and the state after reset. -/

namespace Sys2Proof.Machine

/-- Memory as a sparse list of (address, byte): addresses strictly rising, none equal to what an unlisted address
reads as (`Memory.wf` in Machine/Memory.lean). -/
abbrev Memory := List Host.Cell

/-- Everything the spec gives the machine (`10_state.md` section 1), under the spec's own names. -/
structure State where
  /-- General registers `V[0x0]..V[0xF]` (R20); `VF` is element 15 and nothing more (R21). -/
  V : Vector Byte 16
  /-- Memory, addresses 0x000..0xFFF (R23, R60). -/
  MEM : Memory
  /-- Index register (R25). -/
  I : Word
  /-- Program counter (R26): the address of the instruction the next step fetches. -/
  pc : Word
  /-- Call stack entries `S[0]..S[15]` (R30). -/
  S : Vector Word 16
  /-- Stack pointer, 0..16 (R30): the number of entries in use. -/
  sp : Fin 17
  /-- Delay timer (R31). -/
  DT : Byte
  /-- Sound timer (R31). -/
  ST : Byte
  /-- Keypad (R32): `K[k]` is true while key `k` is pressed. -/
  K : Vector Bool 16
  /-- Framebuffer rows `FB[0]..FB[31]` (R33); pixel `FB[row][col]` is `State.pixel`. -/
  FB : Vector PixelRow 32
  /-- The parameter `FONT` (R5, R36), THE MODEL'S OWN FIELD: the 80 bytes the machine was given, which `Reset` loads into
  memory. No event and no instruction changes it; it is not addressable, and a store over 0x50..0x9F changes `MEM`, not
  it. A claim over every state is so a claim for every `FONT` (log entry 14). -/
  FONT : Font
  /-- THE MODEL'S OWN FIELD, not the spec's: how many values have been taken from the random source (R37, R191; log
  entry 1). -/
  draws : Nat
  deriving DecidableEq, Repr

/-- The three step faults (R230). Each ends the step and leaves every piece of state as it was (R234). All are the
spec's own results of a step, so they are neither safe nor unsafe departures from it. -/
inductive Fault where
  /-- Raised by the fetch when `pc >= 0xFFF` (R66, R231). -/
  | addressOutOfRange
  /-- Raised by `CALL` when `sp = 16` (R122, R232). -/
  | stackOverflow
  /-- Raised by `RET` when `sp = 0` (R120, R233). -/
  | stackUnderflow
  deriving DecidableEq, Repr

/-- Why the model gives an instruction no meaning. No meaning of this model answers with it. -/
inductive Refusal where
  /-- An arm of `exec` whose instruction has no meaning yet; safe. No arm uses it. -/
  | notModelled (mnemonic : String)
  deriving DecidableEq, Repr

/-- The state after `Reset` (R38) of a machine whose parameter `FONT` is the argument (R5): everything 0 but
`pc = 0x200`; memory lists nothing, so it reads as its reset contents, zero and `FONT`. `draws` is the model's own field;
its 0 is log entry 1's choice. -/
def State.resetWith (FONT : Font) : State where
  V := Vector.replicate 16 0x00#8
  MEM := []
  I := 0x0000#16
  pc := 0x0200#16
  S := Vector.replicate 16 0x0000#16
  sp := 0
  DT := 0x00#8
  ST := 0x00#8
  K := Vector.replicate 16 false
  FB := Vector.replicate 32 0#64
  FONT := FONT
  draws := 0

/-- The state after `Reset` with the default `FONT` (R36, R38; log entry 2). -/
def State.reset : State := State.resetWith defaultFont

end Sys2Proof.Machine
end

