-- ==== Sys2Proof/Machine/Memory.lean ====
section
/-! DEFINITION. Memory: the reset contents, one byte read and written, and sequences of bytes
(`20_memory.md` R60 to R69; `10_state.md` R36, R38). What an unlisted address reads as depends on the parameter `FONT`, so
every operation takes it. -/

namespace Sys2Proof.Machine

variable (FONT : Font)

/-- What an address that memory does not list reads as: its contents after `Reset`, `FONT` at 0x50..0x9F and 0
elsewhere (R38, R61). -/
def resetByte (a : Nat) : Byte :=
  if h : 0x50 ≤ a ∧ a ≤ 0x9F then FONT[a - 0x50]'(by omega) else 0x00#8

/-- The byte at an address. -/
def Memory.read : Memory → Nat → Byte
  | [], a => resetByte FONT a
  | (b, w) :: m, a => if a = b then w else Memory.read m a

/-- A cell in front of a memory, unless it holds what the address reads as unlisted. -/
def Memory.cons (a : Nat) (v : Byte) (m : Memory) : Memory :=
  if v = resetByte FONT a then m else (a, v) :: m

/-- One byte written, the canonical form kept. -/
def Memory.write : Memory → Nat → Byte → Memory
  | [], a, v => Memory.cons FONT a v []
  | (b, w) :: m, a, v =>
    if a < b then Memory.cons FONT a v ((b, w) :: m)
    else if a = b then Memory.cons FONT a v m
    else (b, w) :: Memory.write m a v

/-- The canonical form from address `lo` upward: addresses rise strictly and stay below 4096, and no cell holds what
its address reads as unlisted. -/
def Memory.wfFrom : Nat → Memory → Bool
  | _, [] => true
  | lo, (a, v) :: m => decide (lo ≤ a) && decide (a < 4096) && decide (v ≠ resetByte FONT a) && Memory.wfFrom (a + 1) m

/-- The canonical form: equal memories are equal lists. -/
def Memory.wf (m : Memory) : Bool := Memory.wfFrom FONT 0 m

/-- `MemRead(addr, 1)` (R64): the byte selected by the low 12 bits of `addr`. -/
def memRead (m : Memory) (addr : Nat) : Byte := Memory.read FONT m (addr % 4096)

/-- `MemWrite(addr, 1, v)` (R65). -/
def memWrite (m : Memory) (addr : Nat) (v : Byte) : Memory := Memory.write FONT m (addr % 4096) v

/-- Bytes stored at `addr`, `addr + 1`, ..., each address reduced mod 4096 on its own (R69). -/
def memWriteList (m : Memory) : Nat → List Byte → Memory
  | _, [] => m
  | addr, v :: vs => memWriteList (memWrite FONT m addr v) (addr + 1) vs

end Sys2Proof.Machine
end

