-- ==== Sys2Proof/Machine/Ops.lean ====
section
/-! DEFINITION. The named operations over registers, pc, stack, framebuffer and memory, the fetch, and raising a fault. -/

namespace Sys2Proof.Machine

/-! ### Registers and pc -/

/-- `V[x]` (R20). -/
def State.readV (s : State) (x : Nibble) : Byte := s.V[x.toNat]'x.isLt

/-- `V[x] <- v` (R20). No register is hardwired and `VF` is not special (R21). -/
def State.writeV (s : State) (x : Nibble) (v : Byte) : State := { s with V := s.V.set x.toNat v x.isLt }

/-- `pc <- target` (R26), 16 bits, never reduced to 12 (R28). -/
def State.setPc (s : State) (target : Word) : State := { s with pc := target }

/-- `pc <- pc + 2`, the default advance (R11, R26). -/
def State.advance (s : State) : State := s.setPc (s.pc + 2#16)

/-- The end of a skip (R129): `pc + 4` when the condition holds, else `pc + 2`. -/
def State.skipIf (s : State) (cond : Bool) : State := if cond then s.setPc (s.pc + 4#16) else s.advance

/-- `I <- v` (R25). -/
def State.setI (s : State) (v : Word) : State := { s with I := v }

/-- `DT <- v` (R31). -/
def State.setDT (s : State) (v : Byte) : State := { s with DT := v }

/-- `ST <- v` (R31). -/
def State.setST (s : State) (v : Byte) : State := { s with ST := v }

/-- All pixels at once. -/
def State.setFB (s : State) (rows : Vector PixelRow 32) : State := { s with FB := rows }

/-- Pixel `FB[row][col]` (R33): true means on. -/
def State.pixel (s : State) (row : Fin 32) (col : Fin 64) : Bool := (s.FB[row.val]'row.isLt).getMsbD col.val

/-- Key `k` of the keypad (R32): true means pressed. -/
def State.key (s : State) (k : Nibble) : Bool := s.K[k.toNat]'k.isLt

/-- One value taken from the random source: the value, and the source one value further on (R191). -/
def State.draw (s : State) : Byte × State := (Config.randomByte s.draws, { s with draws := s.draws + 1 })

/-! ### Memory through the state -/

/-- The memory byte an access at `addr` reads (R64). -/
def State.load (s : State) (addr : Nat) : Byte := memRead s.FONT s.MEM addr

/-- Bytes stored at consecutive addresses from `addr` (R65, R69). -/
def State.storeList (s : State) (addr : Nat) (vs : List Byte) : State := { s with MEM := memWriteList s.FONT s.MEM addr vs }

/-- `V[0..k-1]` loaded from `addr ..`, `V0` first (R175). -/
def State.loadBlock (s : State) (addr : Nat) : Nat → State
  | 0 => s
  | k + 1 => (State.loadBlock s addr k).writeV (BitVec.ofNat 4 k) (s.load (addr + k))

/-! ### Faults (R230, R234 to R236) -/

/-- `raise F`: the step ends with `Fault(F)` and nothing else: no state is saved or changed, no handler is entered, no
mode changes, and no return from it exists (R234, R236). -/
def raise (f : Fault) : Host.Outcome State Fault Refusal := .fault f

/-! ### Call stack (R30) -/

/-- `S[sp] <- v; sp <- sp + 1` (R122); `none` when `sp = 16`, and then nothing is written. -/
def State.push (s : State) (v : Word) : Option State :=
  if h : s.sp.val < 16 then some { s with S := s.S.set s.sp.val v h, sp := ⟨s.sp.val + 1, Nat.succ_lt_succ h⟩ }
  else none

/-- `sp <- sp - 1`, and the value of `S[sp]` (R120); `none` when `sp = 0`, and then nothing is written. The popped
entry keeps its value (R30). -/
def State.pop (s : State) : Option (Word × State) :=
  if s.sp.val = 0 then none
  else some (s.S[s.sp.val - 1]'(by have := s.sp.isLt; omega), { s with sp := ⟨s.sp.val - 1, by have := s.sp.isLt; omega⟩ })

/-! ### Fetch (R66, R67) -/

/-- `Fetch(pc)`: `none` when `pc + 1 >= 4096`, computed without wrap-around; else the word at `pc`, high byte first.
No alignment is asked (R68). -/
def State.fetch (s : State) : Option Word :=
  if s.pc.toNat + 1 ≥ 4096 then none
  else some (wordOfBytes (Memory.read s.FONT s.MEM s.pc.toNat) (Memory.read s.FONT s.MEM (s.pc.toNat + 1)))

/-! ### Outputs (R8) -/

/-- The audio sink "plays while non-zero". -/
def State.soundPlaying (s : State) : Bool := s.ST != 0x00#8

end Sys2Proof.Machine
end

