-- ==== Sys2Proof/Machine/Flags.lean ====
section
/-! DEFINITION. The arithmetic of the flag-writing instructions: each operation's result byte and flag bit, from the
latched operands alone, by exact integers reduced at the end (`41_load_and_alu.md` R142, R147 to R152); and the order
in which the two are written. -/

namespace Sys2Proof.Machine

/-- A flag bit as the byte `VF` receives: 0x00 or 0x01 (R142). -/
def flagByte (f : Bool) : Byte := if f then 0x01#8 else 0x00#8

/-- `a + b`: the sum mod 256, and the carry `a + b > 255` (R147). -/
def addCarry (a b : Byte) : Byte × Bool := (BitVec.ofNat 8 (a.toNat + b.toNat), decide (a.toNat + b.toNat > 255))

/-- `a - b`: the difference mod 256, and not-borrow `a >= b` (R148). -/
def subNotBorrow (a b : Byte) : Byte × Bool := (BitVec.ofInt 8 (a.toNat - b.toNat), decide (a.toNat ≥ b.toNat))

/-- `a >> 1` with a zero entering at the top, and bit 0 of `a` (R149). -/
def shiftRightOut (a : Byte) : Byte × Bool := (a >>> 1, a.getLsbD 0)

/-- `(a << 1) mod 256`, and bit 7 of `a` (R151). -/
def shiftLeftOut (a : Byte) : Byte × Bool := (a <<< 1, a.getLsbD 7)

/-- The writes of R142: the flag to `VF` first, the result to `V[x]` second, so that with `x = 0xF` the result is what
remains. Log entry 4. -/
def State.writeFlagged (s : State) (x : Nibble) (r : Byte × Bool) : State :=
  (s.writeV 0xF#4 (flagByte r.2)).writeV x r.1

end Sys2Proof.Machine
end

