-- ==== Sys2Proof/Machine/Alu.lean ====
section
/-! DEFINITION. Register loads and the ALU (`41_load_and_alu.md`). Every one ends with `pc + 2` and faults never. -/

namespace Sys2Proof.Machine

/-- LD Vx,kk (R140). -/
def execLdVxKk (x : Nibble) (kk : Byte) (s : State) : Host.Outcome State Fault Refusal :=
  .next (s.writeV x kk).advance

/-- ADD Vx,kk (R141): wraps, no flag. -/
def execAddVxKk (x : Nibble) (kk : Byte) (s : State) : Host.Outcome State Fault Refusal :=
  .next (s.writeV x (s.readV x + kk)).advance

/-- LD Vx,Vy (R143). -/
def execLdVxVy (x y : Nibble) (s : State) : Host.Outcome State Fault Refusal :=
  .next (s.writeV x (s.readV y)).advance

/-- OR Vx,Vy (R144). -/
def execOrVxVy (x y : Nibble) (s : State) : Host.Outcome State Fault Refusal :=
  .next (s.writeV x (s.readV x ||| s.readV y)).advance

/-- AND Vx,Vy (R145). -/
def execAndVxVy (x y : Nibble) (s : State) : Host.Outcome State Fault Refusal :=
  .next (s.writeV x (s.readV x &&& s.readV y)).advance

/-- XOR Vx,Vy (R146). -/
def execXorVxVy (x y : Nibble) (s : State) : Host.Outcome State Fault Refusal :=
  .next (s.writeV x (s.readV x ^^^ s.readV y)).advance

/-- ADD Vx,Vy (R147). -/
def execAddVxVy (x y : Nibble) (s : State) : Host.Outcome State Fault Refusal :=
  .next (s.writeFlagged x (addCarry (s.readV x) (s.readV y))).advance

/-- SUB Vx,Vy (R148): `Vx - Vy`. -/
def execSubVxVy (x y : Nibble) (s : State) : Host.Outcome State Fault Refusal :=
  .next (s.writeFlagged x (subNotBorrow (s.readV x) (s.readV y))).advance

/-- SHR Vx (R149): `y` plays no part. -/
def execShrVx (x _y : Nibble) (s : State) : Host.Outcome State Fault Refusal :=
  .next (s.writeFlagged x (shiftRightOut (s.readV x))).advance

/-- SUBN Vx,Vy (R150): `Vy - Vx`. -/
def execSubnVxVy (x y : Nibble) (s : State) : Host.Outcome State Fault Refusal :=
  .next (s.writeFlagged x (subNotBorrow (s.readV y) (s.readV x))).advance

/-- SHL Vx (R151): `y` plays no part. -/
def execShlVx (x _y : Nibble) (s : State) : Host.Outcome State Fault Refusal :=
  .next (s.writeFlagged x (shiftLeftOut (s.readV x))).advance

end Sys2Proof.Machine
end

