-- ==== Sys2Proof/Machine/Operands.lean ====
section
/-! DEFINITION. The operand forms: immediates extended, jump targets, data addresses, key index, glyph address,
decimal digits, register blocks (`30_encoding.md` R93; `42_index_and_memory.md` R176). -/

namespace Sys2Proof.Machine

/-- `zext_16(nnn)` (R93). -/
def zextNnn (nnn : Addr12) : Word := nnn.setWidth 16

/-- `zext_16(v)` (R93). -/
def zextByte (v : Byte) : Word := v.setWidth 16

/-- The base of every data access, as an unbounded integer: `I` (R176). The offset `k` is added to it and the sum is
reduced mod 4096 where it reaches memory (R64). -/
def State.base (s : State) : Nat := s.I.toNat

/-- The key a keypad skip tests: `Vx[3:0]` (R216). -/
def keyIndex (v : Byte) : Nibble := v.extractLsb' 0 4

/-- `0x50 + 5 * Vx`, all 8 bits of `Vx` (R172). -/
def glyphAddress (v : Byte) : Word := BitVec.ofNat 16 (0x50 + 5 * v.toNat)

/-- The hundreds, tens and ones digits, one byte each, hundreds first (R173). -/
def bcdDigits (v : Byte) : List Byte :=
  [BitVec.ofNat 8 (v.toNat / 100), BitVec.ofNat 8 (v.toNat / 10 % 10), BitVec.ofNat 8 (v.toNat % 10)]

/-- The values of `V0..Vx`, `V0` first (R174). -/
def State.regBlock (s : State) (x : Nibble) : List Byte := s.V.toList.take (x.toNat + 1)

/-- The smallest pressed key, scanning 0..15 upward (R213); `none` when no key is pressed. -/
def State.firstKey (s : State) : Option Byte := (s.K.toList.findIdx? (fun b => b)).map (BitVec.ofNat 8)

/-- The starting column and row of a sprite, `Vx mod 64` and `Vy mod 32` (R197, R198). -/
def spriteColumn (v : Byte) : Nat := v.toNat % 64

/-- See `spriteColumn`. -/
def spriteRow (v : Byte) : Nat := v.toNat % 32

end Sys2Proof.Machine
end

