-- ==== Sys2Proof/Machine/Control.lean ====
section
/-! DEFINITION. Control flow (`40_control_flow.md`), and the undefined word (`30_encoding.md` R101). -/

namespace Sys2Proof.Machine

/-- RET (R120). -/
def execRet (s : State) : Host.Outcome State Fault Refusal :=
  match s.pop with
  | some (target, t) => .next (t.setPc target)
  | none => raise .stackUnderflow

/-- JP nnn (R121). -/
def execJp (nnn : Addr12) (s : State) : Host.Outcome State Fault Refusal := .next (s.setPc (zextNnn nnn))

/-- CALL nnn (R122): the address after the call is pushed. -/
def execCall (nnn : Addr12) (s : State) : Host.Outcome State Fault Refusal :=
  match s.push (s.pc + 2#16) with
  | some t => .next (t.setPc (zextNnn nnn))
  | none => raise .stackOverflow

/-- SE Vx,kk (R123). -/
def execSeVxKk (x : Nibble) (kk : Byte) (s : State) : Host.Outcome State Fault Refusal :=
  .next (s.skipIf (s.readV x == kk))

/-- SNE Vx,kk (R124). -/
def execSneVxKk (x : Nibble) (kk : Byte) (s : State) : Host.Outcome State Fault Refusal :=
  .next (s.skipIf (s.readV x != kk))

/-- SE Vx,Vy (R125). -/
def execSeVxVy (x y : Nibble) (s : State) : Host.Outcome State Fault Refusal :=
  .next (s.skipIf (s.readV x == s.readV y))

/-- SNE Vx,Vy (R126). -/
def execSneVxVy (x y : Nibble) (s : State) : Host.Outcome State Fault Refusal :=
  .next (s.skipIf (s.readV x != s.readV y))

/-- JP V0,nnn (R127): always register 0; the sum is not reduced to 12 bits. -/
def execJpV0Nnn (nnn : Addr12) (s : State) : Host.Outcome State Fault Refusal :=
  .next (s.setPc (zextByte (s.readV 0x0#4) + zextNnn nnn))

/-- An undefined word (R101): a no-op that advances `pc` by 2. -/
def execUndefined (s : State) : Host.Outcome State Fault Refusal := .next s.advance

end Sys2Proof.Machine
end

