-- ==== Sys2Proof/Machine/Display.lean ====
section
/-! DEFINITION. The display instructions and the sprite engine (`44_display.md`). -/

namespace Sys2Proof.Machine

/-- CLS (R196). -/
def execCls (s : State) : Host.Outcome State Fault Refusal := .next (s.setFB (Vector.replicate 32 0#64)).advance

/-- The pixels one sprite byte toggles in its framebuffer row: bit `7 - c` of the byte at column `x0 + c` (R195), and
what would pass column 63 dropped (R198). -/
def spriteMask (b : Byte) (x0 : Nat) : PixelRow := (b.setWidth 64 <<< 56) >>> x0

/-- One sprite row: XOR into framebuffer row `(y0 + r) mod 32`; a toggled pixel that was on is a collision (R197,
R199). -/
def drawRow (x0 y0 r : Nat) (b : Byte) (fb : Vector PixelRow 32 × Bool) : Vector PixelRow 32 × Bool :=
  have hrow : (y0 + r) % 32 < 32 := Nat.mod_lt _ (by decide)
  let old := fb.1[(y0 + r) % 32]'hrow
  (fb.1.set ((y0 + r) % 32) (old ^^^ spriteMask b x0) hrow, fb.2 || (old &&& spriteMask b x0) != 0#64)

/-- The first `k` sprite rows drawn, row 0 first; the sprite bytes come from `I, I + 1, ...` (R197, R198). -/
def State.drawRows (s : State) (x0 y0 : Nat) : Nat → Vector PixelRow 32 × Bool
  | 0 => (s.FB, false)
  | k + 1 => drawRow x0 y0 k (s.load (s.base + k)) (State.drawRows s x0 y0 k)

/-- DRW Vx,Vy,n (R197): the coordinates are read before `VF` is written, and `VF` is written once, after all rows. -/
def execDrwVxVyN (x y n : Nibble) (s : State) : Host.Outcome State Fault Refusal :=
  let drawn := s.drawRows (spriteColumn (s.readV x)) (spriteRow (s.readV y)) n.toNat
  .next ((s.setFB drawn.1).writeV 0xF#4 (flagByte drawn.2)).advance

end Sys2Proof.Machine
end

