-- ==== Sys2Proof/Machine/Index.lean ====
section
/-! DEFINITION. The index register and the memory moves (`42_index_and_memory.md`). None of the moves changes `I` (R177);
every one ends with `pc + 2` and faults never. -/

namespace Sys2Proof.Machine

/-- LD I,nnn (R170). -/
def execLdINnn (nnn : Addr12) (s : State) : Host.Outcome State Fault Refusal := .next (s.setI (zextNnn nnn)).advance

/-- ADD I,Vx (R171): mod 65536, no flag. -/
def execAddIVx (x : Nibble) (s : State) : Host.Outcome State Fault Refusal :=
  .next (s.setI (s.I + zextByte (s.readV x))).advance

/-- LD F,Vx (R172). -/
def execLdFVx (x : Nibble) (s : State) : Host.Outcome State Fault Refusal :=
  .next (s.setI (glyphAddress (s.readV x))).advance

/-- LD B,Vx (R173). -/
def execLdBVx (x : Nibble) (s : State) : Host.Outcome State Fault Refusal :=
  .next (s.storeList s.base (bcdDigits (s.readV x))).advance

/-- LD [I],Vx (R174). -/
def execLdIndVx (x : Nibble) (s : State) : Host.Outcome State Fault Refusal :=
  .next (s.storeList s.base (s.regBlock x)).advance

/-- LD Vx,[I] (R175). -/
def execLdVxInd (x : Nibble) (s : State) : Host.Outcome State Fault Refusal :=
  .next (s.loadBlock s.base (x.toNat + 1)).advance

end Sys2Proof.Machine
end

