-- ==== Sys2Proof/Machine/Keypad.lean ====
section
/-! DEFINITION. The keypad and timer instructions (`45_keypad_and_timers.md`). None faults and none writes a flag. -/

namespace Sys2Proof.Machine

/-- SKP Vx (R210). -/
def execSkpVx (x : Nibble) (s : State) : Host.Outcome State Fault Refusal :=
  .next (s.skipIf (s.key (keyIndex (s.readV x))))

/-- SKNP Vx (R211). -/
def execSknpVx (x : Nibble) (s : State) : Host.Outcome State Fault Refusal :=
  .next (s.skipIf (!s.key (keyIndex (s.readV x))))

/-- LD Vx,DT (R212). -/
def execLdVxDT (x : Nibble) (s : State) : Host.Outcome State Fault Refusal := .next (s.writeV x s.DT).advance

/-- LD Vx,K (R213): with no key pressed nothing changes, `pc` included, so the next step fetches it again. -/
def execLdVxK (x : Nibble) (s : State) : Host.Outcome State Fault Refusal :=
  match s.firstKey with
  | some k => .next (s.writeV x k).advance
  | none => .next s

/-- LD DT,Vx (R214). -/
def execLdDTVx (x : Nibble) (s : State) : Host.Outcome State Fault Refusal := .next (s.setDT (s.readV x)).advance

/-- LD ST,Vx (R215). -/
def execLdSTVx (x : Nibble) (s : State) : Host.Outcome State Fault Refusal := .next (s.setST (s.readV x)).advance

end Sys2Proof.Machine
end

