-- ==== Sys2Proof/Machine/Random.lean ====
section
/-! DEFINITION. The random instruction (`43_random.md`). -/

namespace Sys2Proof.Machine

/-- RND Vx,kk (R190): exactly one value is taken, whatever `kk` is (R191). -/
def execRndVxKk (x : Nibble) (kk : Byte) (s : State) : Host.Outcome State Fault Refusal :=
  .next (s.draw.2.writeV x (s.draw.1 &&& kk)).advance

end Sys2Proof.Machine
end

