-- ==== Sys2Proof/Machine/Step.lean ====
section
/-! DEFINITION. The `Step` event (`30_encoding.md` R90): fetch, decode, dispatch; and a word placed where the next step
fetches it. -/

namespace Sys2Proof.Machine

/-- One step. The fetch bound is tested before anything is decoded (R237); an undefined word is a no-op (R101). -/
def step (s : State) : Host.Outcome State Fault Refusal :=
  match s.fetch with
  | none => raise .addressOutOfRange
  | some iw =>
    match decodeWord iw with
    | .instr i => exec i s
    | .undefined _ => execUndefined s

/-- `s` with the instruction word `w` (of `nbits` bits, numbered as the opcode table numbers them) stored at `pc` and
`pc + 1`, high byte first. A `pc` from which nothing can be fetched (0xFFF and above) is first set to 0x200, where a
program starts (log entry 3). -/
def State.withFetchWord (s : State) (nbits w : Nat) : State :=
  let t := if s.pc.toNat + 1 ≥ 4096 then s.setPc 0x0200#16 else s
  let iw : Word := BitVec.ofNat 16 (w % 2 ^ nbits)
  t.storeList t.pc.toNat [highByte iw, lowByte iw]

end Sys2Proof.Machine
end

