-- ==== Sys2Proof/Machine/Events.lean ====
section
/-! DEFINITION. The host events other than `Step` (`00_scope.md` R7): `Reset`, `LoadProgram`, `SetKey`, `TimerTick`. -/

namespace Sys2Proof.Machine

/-- The two errors of host calls (R230), returned to the caller with no state changed. -/
inductive HostError where
  /-- From `LoadProgram` (R244). -/
  | programTooLarge
  /-- From `SetKey` (R243). -/
  | invalidKeyIndex
  deriving DecidableEq, Repr

/-- `Reset` (R270, R271): every piece of state takes its reset value, whatever it was, and the machine's own
`FONT` is loaded again; the random source alone is not touched (R192). -/
def State.resetEvent (s : State) : State := { State.resetWith s.FONT with draws := s.draws }

/-- `LoadProgram(bytes)` (R244): at most 3584 bytes, to 0x200 upward; nothing else changes. -/
def State.loadProgram (s : State) (bytes : List Byte) : Except HostError State :=
  if bytes.length > 3584 then .error .programTooLarge else .ok (s.storeList 0x200 bytes)

/-- `SetKey(index, pressed)` (R243): one key bit; an index outside `[0, 16)` is rejected. -/
def State.setKey (s : State) (index : Int) (pressed : Bool) : Except HostError State :=
  if h : 0 ≤ index ∧ index < 16 then .ok { s with K := s.K.set index.toNat pressed (by omega) }
  else .error .invalidKeyIndex

/-- A timer one tick later: down by 1 while above 0, and no wrap (R241). -/
def tickDown (t : Byte) : Byte := if t.toNat > 0 then t - 1#8 else t

/-- `TimerTick` (R241). -/
def State.timerTick (s : State) : State := (s.setDT (tickDown s.DT)).setST (tickDown s.ST)

end Sys2Proof.Machine
end

