-- ==== Sys2Proof/Machine/Run.lean ====
section
/-! DEFINITION. The block at its boundary (`00_scope.md` R6, R7): any host event, its transition and its result, and runs
over any sequence of events. The host alone chooses the sequence, so a claim about a run holds for every list. -/

namespace Sys2Proof.Machine

/-- The events and their arguments (R7). -/
inductive Event where
  | reset
  | loadProgram (bytes : List Byte)
  | setKey (index : Int) (pressed : Bool)
  | timerTick
  | step
  deriving DecidableEq, Repr

/-- What an event returns to the host (R7, R230). -/
inductive EventResult where
  /-- `Reset` and `TimerTick` return nothing. -/
  | none
  | ok
  | error (e : HostError)
  | fault (f : Fault)
  /-- A step the model gives no meaning to; no step of this model ends so. -/
  | refused (r : Refusal)
  deriving DecidableEq, Repr

/-- A host call's result applied: the state is unchanged when the call is rejected (R243, R244). -/
def State.settle (s : State) : Except HostError State → State × EventResult
  | .ok t => (t, .ok)
  | .error e => (s, .error e)

/-- A step's result applied: a faulting step changes nothing (R234), and the block keeps no faulted flag (R236). -/
def State.settleStep (s : State) : Host.Outcome State Fault Refusal → State × EventResult
  | .next t => (t, .ok)
  | .fault f => (s, .fault f)
  | .refused r => (s, .refused r)

/-- One event, indivisible: the state after it, and its result (R6, R7). -/
def State.apply (s : State) : Event → State × EventResult
  | .reset => (s.resetEvent, .none)
  | .loadProgram bytes => s.settle (s.loadProgram bytes)
  | .setKey index pressed => s.settle (s.setKey index pressed)
  | .timerTick => (s.timerTick, .none)
  | .step => s.settleStep (Machine.step s)

/-- The state after a sequence of events, the first event first. -/
def State.applyAll : State → List Event → State
  | s, [] => s
  | s, e :: es => State.applyAll (s.apply e).1 es

end Sys2Proof.Machine
end

