-- ==== Sys2Proof/WellFormed.lean ====
section
/-! DEFINITION. Well-formedness of an instruction as syntax. Every operand type is as wide as its field and every
value of every field is legal (`30_encoding.md` R93), so the machine has nothing left to check: every term of `Instr`
is well formed. What can still be ill formed is an instruction as an assembler would write it (R104). -/

namespace Sys2Proof

/-- Well formed for the machine: every instruction, by the width of its operand types (R93). -/
def Instr.wellFormed : Instr → Bool
  | .cls | .ret => true
  | .jp _ | .call _ | .ldINnn _ | .jpV0Nnn _ => true
  | .seVxKk _ _ | .sneVxKk _ _ | .ldVxKk _ _ | .addVxKk _ _ | .rndVxKk _ _ => true
  | .seVxVy _ _ | .sneVxVy _ _ | .ldVxVy _ _ | .orVxVy _ _ | .andVxVy _ _ | .xorVxVy _ _ => true
  | .addVxVy _ _ | .subVxVy _ _ | .shrVx _ _ | .subnVxVy _ _ | .shlVx _ _ => true
  | .drwVxVyN _ _ _ => true
  | .skpVx _ | .sknpVx _ | .ldVxDT _ | .ldVxK _ | .ldDTVx _ | .ldSTVx _ => true
  | .addIVx _ | .ldFVx _ | .ldBVx _ | .ldIndVx _ | .ldVxInd _ => true

/-- As an assembler writes it (R104): "`SHR Vx` and `SHL Vx` take one operand; their `y` field is assembled as 0".
The machine itself executes these two with any `y` (R149, R151). -/
def Instr.assembled : Instr → Bool
  | .shrVx _ y => y == 0x0#4
  | .shlVx _ y => y == 0x0#4
  | i => i.wellFormed

end Sys2Proof
end

