-- ==== Sys2Proof/Safety.lean ====
section
/-! DEFINITION. The terms in which claims are stated: completion, the end of a run, the invariant of reachable states,
and what each instruction may write (the tables of `10_state.md` sections 1 and R22, `20_memory.md` R70). -/

namespace Sys2Proof.Safety

open Sys2Proof.Machine

/-- The step ends with `Ok` (R7, R90). -/
def completes (s : State) : Prop := ∃ t, step s = .next t

/-- The end of a run, by the spec's default for `END_OF_RUN` (R254): the word at `pc` is a `JP` to `pc` itself. It says
nothing of the hardware, which does not stop. Log entry 8. -/
def endOfRun (s : State) : Bool := s.fetch == some (wordNnn 0x1#4 (s.pc.setWidth 12))

/-- What holds in every state reachable from `Reset` (R29, R40): `pc < 0x1100`, every stack entry at most 0x1000; and
the model's own canonical form of memory. (`sp <= 16`, and the widths of the rest, hold by type.) -/
abbrev inv (s : State) : Prop :=
  s.MEM.wf s.FONT = true ∧ s.pc.toNat < 0x1100 ∧ ∀ k : Fin 16, (s.S[k.val]'k.isLt).toNat ≤ 0x1000

/-- Reachable: the state after some sequence of events that follows `Reset` (R273), on a machine with any `FONT` (R5). -/
def reachable (s : State) : Prop := ∃ (FONT : Font) (es : List Event), s = (State.resetWith FONT).applyAll es

/-- Every word with `iw and mask = bits` decodes to the instruction `build iw` (R97). -/
def encoded (mask bits : Word) (build : Word → Instr) : Prop :=
  ∀ iw : Word, iw &&& mask = bits → decodeWord iw = .instr (build iw)

/-- The table of R22: `writesV i r` when instruction `i` may write general register `r`. -/
def writesV : Instr → Nibble → Bool
  | .cls, _ | .ret, _ | .jp _, _ | .call _, _ | .ldINnn _, _ | .jpV0Nnn _, _ => false
  | .seVxKk _ _, _ | .sneVxKk _ _, _ | .seVxVy _ _, _ | .sneVxVy _ _, _ | .skpVx _, _ | .sknpVx _, _ => false
  | .ldDTVx _, _ | .ldSTVx _, _ | .addIVx _, _ | .ldFVx _, _ | .ldBVx _, _ | .ldIndVx _, _ => false
  | .ldVxKk x _, r | .addVxKk x _, r | .rndVxKk x _, r | .ldVxDT x, r | .ldVxK x, r => r == x
  | .ldVxVy x _, r | .orVxVy x _, r | .andVxVy x _, r | .xorVxVy x _, r => r == x
  | .addVxVy x _, r | .subVxVy x _, r | .shrVx x _, r | .subnVxVy x _, r | .shlVx x _, r => r == x || r == 0xF#4
  | .drwVxVyN _ _ _, r => r == 0xF#4
  | .ldVxInd x, r => decide (r.toNat ≤ x.toNat)

/-- The table of R22, the other column: `readsV i r` when instruction `i` may read general register `r`. -/
def readsV : Instr → Nibble → Bool
  | .cls, _ | .ret, _ | .jp _, _ | .call _, _ | .ldINnn _, _ => false
  | .ldVxKk _ _, _ | .rndVxKk _ _, _ | .ldVxDT _, _ | .ldVxK _, _ | .ldVxInd _, _ => false
  | .seVxKk x _, r | .sneVxKk x _, r | .addVxKk x _, r | .shrVx x _, r | .shlVx x _, r => r == x
  | .skpVx x, r | .sknpVx x, r | .ldDTVx x, r | .ldSTVx x, r | .addIVx x, r | .ldFVx x, r | .ldBVx x, r => r == x
  | .seVxVy x y, r | .sneVxVy x y, r | .orVxVy x y, r | .andVxVy x y, r | .xorVxVy x y, r => r == x || r == y
  | .addVxVy x y, r | .subVxVy x y, r | .subnVxVy x y, r | .drwVxVyN x y _, r => r == x || r == y
  | .ldVxVy _ y, r => r == y
  | .jpV0Nnn _, r => r == 0x0#4
  | .ldIndVx x, r => decide (r.toNat ≤ x.toNat)

/-- The table of R70: how many bytes an instruction writes to memory, from `I` upward. -/
def bytesStored : Instr → Nat
  | .ldBVx _ => 3
  | .ldIndVx x => x.toNat + 1
  | .cls | .ret | .jp _ | .call _ | .ldINnn _ | .jpV0Nnn _ => 0
  | .seVxKk _ _ | .sneVxKk _ _ | .ldVxKk _ _ | .addVxKk _ _ | .rndVxKk _ _ => 0
  | .seVxVy _ _ | .sneVxVy _ _ | .ldVxVy _ _ | .orVxVy _ _ | .andVxVy _ _ | .xorVxVy _ _ => 0
  | .addVxVy _ _ | .subVxVy _ _ | .shrVx _ _ | .subnVxVy _ _ | .shlVx _ _ | .drwVxVyN _ _ _ => 0
  | .skpVx _ | .sknpVx _ | .ldVxDT _ | .ldVxK _ | .ldDTVx _ | .ldSTVx _ | .addIVx _ | .ldFVx _ | .ldVxInd _ => 0

/-- The table of R70: how many bytes an instruction reads from memory as data, from `I` upward. -/
def bytesRead : Instr → Nat
  | .drwVxVyN _ _ n => n.toNat
  | .ldVxInd x => x.toNat + 1
  | .cls | .ret | .jp _ | .call _ | .ldINnn _ | .jpV0Nnn _ => 0
  | .seVxKk _ _ | .sneVxKk _ _ | .ldVxKk _ _ | .addVxKk _ _ | .rndVxKk _ _ => 0
  | .seVxVy _ _ | .sneVxVy _ _ | .ldVxVy _ _ | .orVxVy _ _ | .andVxVy _ _ | .xorVxVy _ _ => 0
  | .addVxVy _ _ | .subVxVy _ _ | .shrVx _ _ | .subnVxVy _ _ | .shlVx _ _ => 0
  | .skpVx _ | .sknpVx _ | .ldVxDT _ | .ldVxK _ | .ldDTVx _ | .ldSTVx _ | .addIVx _ | .ldFVx _ => 0
  | .ldBVx _ | .ldIndVx _ => 0

/-- The instructions that write `I` (R177). -/
def writesI : Instr → Bool
  | .ldINnn _ | .addIVx _ | .ldFVx _ => true
  | .cls | .ret | .jp _ | .call _ | .jpV0Nnn _ => false
  | .seVxKk _ _ | .sneVxKk _ _ | .ldVxKk _ _ | .addVxKk _ _ | .rndVxKk _ _ => false
  | .seVxVy _ _ | .sneVxVy _ _ | .ldVxVy _ _ | .orVxVy _ _ | .andVxVy _ _ | .xorVxVy _ _ => false
  | .addVxVy _ _ | .subVxVy _ _ | .shrVx _ _ | .subnVxVy _ _ | .shlVx _ _ | .drwVxVyN _ _ _ => false
  | .skpVx _ | .sknpVx _ | .ldVxDT _ | .ldVxK _ | .ldDTVx _ | .ldSTVx _ | .ldBVx _ | .ldIndVx _ | .ldVxInd _ => false

/-- `i` is a `RND`: the one instruction that takes a value from the random source (R191). -/
def draws : Instr → Bool
  | .rndVxKk _ _ => true
  | .cls | .ret | .jp _ | .call _ | .ldINnn _ | .jpV0Nnn _ => false
  | .seVxKk _ _ | .sneVxKk _ _ | .ldVxKk _ _ | .addVxKk _ _ => false
  | .seVxVy _ _ | .sneVxVy _ _ | .ldVxVy _ _ | .orVxVy _ _ | .andVxVy _ _ | .xorVxVy _ _ => false
  | .addVxVy _ _ | .subVxVy _ _ | .shrVx _ _ | .subnVxVy _ _ | .shlVx _ _ | .drwVxVyN _ _ _ => false
  | .skpVx _ | .sknpVx _ | .ldVxDT _ | .ldVxK _ | .ldDTVx _ | .ldSTVx _ => false
  | .addIVx _ | .ldFVx _ | .ldBVx _ | .ldIndVx _ | .ldVxInd _ => false

/-- `t` is `s` with register `x` holding the number `n`, every other register as it was, and `pc + 2`; nothing else
differs. -/
def setsOne (x : Nibble) (n : Nat) (s t : State) : Prop :=
  t = { s with V := t.V, pc := s.pc + 2#16 } ∧ (t.readV x).toNat = n ∧ ∀ r : Nibble, r ≠ x → t.readV r = s.readV r

/-- As `setsOne`, for an instruction that also sets `VF` to the flag `f`, 1 or 0; with `x = 0xF` the result `n` is what
`VF` holds (R142; log entry 4). -/
def setsFlagged (x : Nibble) (n : Nat) (f : Prop) (s t : State) : Prop :=
  t = { s with V := t.V, pc := s.pc + 2#16 } ∧ (t.readV x).toNat = n ∧
  (x ≠ 0xF#4 → (f → t.readV 0xF#4 = 0x01#8) ∧ (¬ f → t.readV 0xF#4 = 0x00#8)) ∧
  ∀ r : Nibble, r ≠ x → r ≠ 0xF#4 → t.readV r = s.readV r

/-- Two steps end alike: both complete, in states that `R` relates; or both end in the same fault. For claims about what
an instruction can depend on. -/
def sameOutcome (R : State → State → Prop) :
    Host.Outcome State Fault Refusal → Host.Outcome State Fault Refusal → Prop
  | .next t, .next u => R t u
  | .fault f, .fault g => f = g
  | .refused p, .refused q => p = q
  | _, _ => False

/-- `drawn s x0 y0 n row col`: a sprite of `n` rows at column `x0`, row `y0` has a 1 bit at this pixel: some sprite
row `r < n` falls on `row`, and its byte, at `I + r`, has bit `7 - c` set for the column offset `c = col - x0` (R195,
R197, R198). Columns do not wrap. -/
def drawn (s : State) (x0 y0 n : Nat) (row : Fin 32) (col : Fin 64) : Prop :=
  ∃ r c : Nat, r < n ∧ c < 8 ∧ (y0 + r) % 32 = row.val ∧ x0 + c = col.val ∧
    (s.load (s.I.toNat + r)).getLsbD (7 - c) = true

end Sys2Proof.Safety
end

