-- ==== Sys2Proof/Certificates/Slice0/Obligations.lean ====
section
/-! DEFINITION. The statements for the provers. Each docstring names the rules of `spec/` the statement formalises, and
the log entry (`notes/assumptions/`) or decision of the spec that a clause rests on where the spec's source is silent. -/

open Sys2Proof Sys2Proof.Machine Sys2Proof.Safety

/-! ### Encoding and decoding (`30_encoding.md`) -/

/-- Words of every family, written out by hand from the patterns of R97 (operand digits 1, 2, 3 or A, B, C), decode to
the instructions they stand for. The nine operations of family 8 and the three timer patterns are the spec's
assignment from general knowledge (R100, log entry 9); the positions of the operand fields are its decision D2 (log
entry 10). -/
def Obligations.SampleWordsDecode : Prop :=
  decodeBytes 0x00 0xE0 = .instr .cls ∧ decodeBytes 0x00 0xEE = .instr .ret ∧
  decodeBytes 0x1A 0xBC = .instr (.jp 0xABC) ∧ decodeBytes 0x2A 0xBC = .instr (.call 0xABC) ∧
  decodeBytes 0x3A 0xBC = .instr (.seVxKk 0xA 0xBC) ∧ decodeBytes 0x4A 0xBC = .instr (.sneVxKk 0xA 0xBC) ∧
  decodeBytes 0x5A 0xB0 = .instr (.seVxVy 0xA 0xB) ∧ decodeBytes 0x6A 0xBC = .instr (.ldVxKk 0xA 0xBC) ∧
  decodeBytes 0x7A 0xBC = .instr (.addVxKk 0xA 0xBC) ∧ decodeBytes 0x81 0x24 = .instr (.addVxVy 0x1 0x2) ∧
  decodeBytes 0x8A 0xB7 = .instr (.subnVxVy 0xA 0xB) ∧ decodeBytes 0x8A 0xBE = .instr (.shlVx 0xA 0xB) ∧
  decodeBytes 0x9A 0xB0 = .instr (.sneVxVy 0xA 0xB) ∧ decodeBytes 0xAA 0xBC = .instr (.ldINnn 0xABC) ∧
  decodeBytes 0xBA 0xBC = .instr (.jpV0Nnn 0xABC) ∧ decodeBytes 0xCA 0xBC = .instr (.rndVxKk 0xA 0xBC) ∧
  decodeBytes 0xDA 0xBC = .instr (.drwVxVyN 0xA 0xB 0xC) ∧ decodeBytes 0xEA 0x9E = .instr (.skpVx 0xA) ∧
  decodeBytes 0xEA 0xA1 = .instr (.sknpVx 0xA) ∧ decodeBytes 0xFA 0x07 = .instr (.ldVxDT 0xA) ∧
  decodeBytes 0xFA 0x0A = .instr (.ldVxK 0xA) ∧ decodeBytes 0xFA 0x65 = .instr (.ldVxInd 0xA) ∧
  decodeBytes 0x80 0x18 = .undefined 0x8018

/-- Where the fields sit (`30_encoding.md` section 2; the positions below the top nibble are the spec's decision D2,
log entry 10), said by division of the word's value, for every word; and which half of which byte of memory holds each. -/
def Obligations.FieldsSitWhereStated : Prop :=
  (∀ iw : Word,
    (family iw).toNat = iw.toNat / 4096 ∧ (fieldX iw).toNat = iw.toNat / 256 % 16 ∧
    (fieldY iw).toNat = iw.toNat / 16 % 16 ∧ (fieldN iw).toNat = iw.toNat % 16 ∧
    (fieldKk iw).toNat = iw.toNat % 256 ∧ (fieldNnn iw).toNat = iw.toNat % 4096) ∧
  ∀ hi lo : Byte,
    (family (wordOfBytes hi lo)).toNat = hi.toNat / 16 ∧ (fieldX (wordOfBytes hi lo)).toNat = hi.toNat % 16 ∧
    fieldKk (wordOfBytes hi lo) = lo ∧ (fieldY (wordOfBytes hi lo)).toNat = lo.toNat / 16 ∧
    (fieldN (wordOfBytes hi lo)).toNat = lo.toNat % 16

/-- Every instruction, with every value of every operand, is well formed and is what the decoder reads from its canonical
word, as a word and as two bytes in memory order (R91, R97, R98). -/
def Obligations.DecodeOfEncode : Prop :=
  ∀ i : Instr, i.wellFormed = true ∧ decodeWord (encode i) = .instr i ∧
    decodeBytes (encodeBytes i).1 (encodeBytes i).2 = .instr i

/-- The opcode map of R97, 34 rows: a word decodes to a row's instruction, with the operand fields of that word, exactly
when `iw and mask = match`; and no two rows match the same word. Which operation stands in which row of family 8, and
of the timer patterns, is the spec's assignment (R100, log entry 9). -/
def Obligations.OpcodeMapDecides : Prop :=
  opcodeMap.length = 34 ∧
  (∀ iw : Word, ∀ row ∈ opcodeMap, (iw &&& row.mask = row.bits ↔ decodeWord iw = .instr (row.build iw))) ∧
  ∀ (iw : Word) (j k : Fin 34), iw &&& opcodeMap[j].mask = opcodeMap[j].bits →
    iw &&& opcodeMap[k].mask = opcodeMap[k].bits → j = k

/-- R99, which the spec marks as derived by enumeration: every word matches exactly one row or is undefined and matches
none; the sizes of the rows' masks; and the counts of undefined words, family by family, 12912 in all. -/
def Obligations.DecoderCounts : Prop :=
  (∀ iw : Word, (∃ k : Fin 34, iw &&& opcodeMap[k].mask = opcodeMap[k].bits ∧
      decodeWord iw = .instr (opcodeMap[k].build iw)) ∨
    (decodeWord iw = .undefined iw ∧ ∀ k : Fin 34, iw &&& opcodeMap[k].mask ≠ opcodeMap[k].bits)) ∧
  (opcodeMap.countP fun row => row.mask == 0xF000) = 12 ∧ (opcodeMap.countP fun row => row.mask == 0xF00F) = 13 ∧
  (opcodeMap.countP fun row => row.mask == 0xF0FF) = 9 ∧
  ∀ f : Nibble,
    ((List.range 4096).countP fun w =>
      decodeWord (BitVec.ofNat 16 (f.toNat * 4096 + w)) == .undefined (BitVec.ofNat 16 (f.toNat * 4096 + w))) =
    if f = 0x0 then 3584 else if f = 0x8 then 1792 else if f = 0xE then 3584 else if f = 0xF then 3952 else 0

/-- R98 (that the decoder accepts aliases is the spec's decision D3, log entry 7): the canonical words, and the aliases,
which decode as the canonical word with the same operand fields whatever the unexamined bits are. -/
def Obligations.AliasesDecodeAlike : Prop :=
  encode .cls = 0x00E0 ∧ encode .ret = 0x00EE ∧
  (∀ x y : Nibble, encode (.skpVx x) = wordXkk 0xE x 0x9E ∧ encode (.sknpVx x) = wordXkk 0xE x 0xA1 ∧
    encode (.seVxVy x y) = wordXyn 0x5 x y 0x0 ∧ encode (.sneVxVy x y) = wordXyn 0x9 x y 0x0) ∧
  ∀ x y n : Nibble,
    decodeWord (wordXyn 0x0 x y 0x0) = .instr .cls ∧ decodeWord (wordXyn 0x0 x y 0xE) = .instr .ret ∧
    decodeWord (wordXyn 0xE x y 0xE) = .instr (.skpVx x) ∧ decodeWord (wordXyn 0xE x y 0x1) = .instr (.sknpVx x) ∧
    decodeWord (wordXyn 0x5 x y n) = .instr (.seVxVy x y) ∧ decodeWord (wordXyn 0x9 x y n) = .instr (.sneVxVy x y)

/-- R101: the undefined words, listed as the rule lists them; and a step that fetches one changes nothing but `pc`,
which goes up by 2. -/
def Obligations.UndefinedWordsAreNoOps : Prop :=
  (∀ iw : Word, decodeWord iw = .undefined iw ↔
    (iw.toNat / 4096 = 0x0 ∧ iw.toNat % 16 ≠ 0x0 ∧ iw.toNat % 16 ≠ 0xE) ∨
    (iw.toNat / 4096 = 0x8 ∧ iw.toNat % 16 ∈ [0x8, 0x9, 0xA, 0xB, 0xC, 0xD, 0xF]) ∨
    (iw.toNat / 4096 = 0xE ∧ iw.toNat % 16 ≠ 0x1 ∧ iw.toNat % 16 ≠ 0xE) ∨
    (iw.toNat / 4096 = 0xF ∧ iw.toNat % 256 ∉ [0x07, 0x0A, 0x15, 0x18, 0x1E, 0x29, 0x33, 0x55, 0x65])) ∧
  (∀ iw : Word, decodeWord iw = .undefined iw ↔ ∀ row ∈ opcodeMap, iw &&& row.mask ≠ row.bits) ∧
  ∀ (s : State) (iw : Word), s.fetch = some iw → decodeWord iw = .undefined iw →
    step s = .next { s with pc := s.pc + 2#16 }

/-! ### The step and its faults (`30_encoding.md` R90, `20_memory.md` R66, `60_exceptions.md`) -/

/-- R66: the fetch fails exactly for `pc >= 0xFFF`, and else gives `MEM[pc] * 256 + MEM[pc + 1]`, for an even or odd
`pc`. -/
def Obligations.FetchIsBigEndian : Prop :=
  ∀ s : State,
    (0xFFF ≤ s.pc.toNat → s.fetch = none ∧ step s = .fault .addressOutOfRange) ∧
    (s.pc.toNat < 0xFFF → ∃ iw, s.fetch = some iw ∧
      iw.toNat = (s.load s.pc.toNat).toNat * 256 + (s.load (s.pc.toNat + 1)).toNat)

/-- R90: what a step does. When the two bytes at `pc` decode to an instruction, the step is that instruction's own
meaning at that state, with nothing around it (each instruction leaves `pc` in its final place, R11); when they decode
to none, it is the undefined word's no-op; when nothing can be fetched, it is the fault, with no state changed. -/
def Obligations.StepRunsDecodedInstruction : Prop :=
  ∀ s : State,
    (s.pc.toNat < 0xFFF →
      (∀ i, decodeBytes (s.load s.pc.toNat) (s.load (s.pc.toNat + 1)) = .instr i → step s = exec i s) ∧
      (∀ iw, decodeBytes (s.load s.pc.toNat) (s.load (s.pc.toNat + 1)) = .undefined iw →
        step s = .next { s with pc := s.pc + 2#16 })) ∧
    (0xFFF ≤ s.pc.toNat → s.apply .step = (s, .fault .addressOutOfRange))

/-- Each of the three faults arises exactly where its rule says (R231 to R233), whatever else holds, and no step is
refused; so in every other state the step completes. Derived: the order of the tests (`pc` below 0xFFF before RET and
CALL) is R237's, which the spec marks as derived, and that RET is told by the two nibbles 0 and 0xE alone, alias words
such as 0x0FFE included, is the spec's decision D3 (log entry 7). -/
def Obligations.StepFaultsExactlyWhere : Prop :=
  ∀ s : State,
    (step s = .fault .addressOutOfRange ↔ 0xFFF ≤ s.pc.toNat) ∧
    (step s = .fault .stackOverflow ↔ s.pc.toNat < 0xFFF ∧ s.sp.val = 16 ∧ (s.load s.pc.toNat).toNat / 16 = 0x2) ∧
    (step s = .fault .stackUnderflow ↔ s.pc.toNat < 0xFFF ∧ s.sp.val = 0 ∧ (s.load s.pc.toNat).toNat / 16 = 0x0 ∧
      (s.load (s.pc.toNat + 1)).toNat % 16 = 0xE) ∧
    (completes s ↔ ∀ f, step s ≠ .fault f) ∧ ∀ r, step s ≠ .refused r

/-- A step that faults, and a host call that is rejected, changes nothing; and every further step faults again, for no
fault is remembered (R234 to R236; that this holds of all three faults is the spec's decision D19). For the host calls it
is R243 and R244 (`60_exceptions.md` section 4; that the rejections belong to the block is the spec's decision D24). Both
decisions: log entry 10. -/
def Obligations.FaultsChangeNothing : Prop :=
  ∀ s : State,
    (∀ f, (s.apply .step).2 = .fault f → (s.apply .step).1 = s ∧
      ∀ n, s.applyAll (List.replicate n .step) = s ∧
        ((s.applyAll (List.replicate n .step)).apply .step).2 = .fault f) ∧
    ∀ e h, (s.apply e).2 = .error h → (s.apply e).1 = s

/-! ### Control flow (`40_control_flow.md`) -/

/-- R120, R233: RET pops; with an empty stack, and by no other instruction, it is StackUnderflow. The popped entry keeps
its value, and a popped value of 0xFFF or more makes the next step fault. The faulting step changes nothing. -/
def Obligations.ReturnPopsStack : Prop :=
  encoded 0xF00F 0x000E (fun _ => .ret) ∧
  (∀ (s : State) (k : Fin 16), s.sp.val = k.val + 1 →
    ∃ t, exec .ret s = .next t ∧ t = { s with sp := k.castSucc, pc := s.S[k.val] } ∧
      (0xFFF ≤ s.S[k.val].toNat → step t = .fault .addressOutOfRange)) ∧
  (∀ (i : Instr) (s : State), exec i s = .fault .stackUnderflow ↔ i = .ret ∧ s.sp.val = 0) ∧
  (∀ s : State, step s = .fault .stackUnderflow → s.apply .step = (s, .fault .stackUnderflow)) ∧
  exec .ret State.reset = .fault .stackUnderflow

/-- R121. -/
def Obligations.JumpSetsPc : Prop :=
  encoded 0xF000 0x1000 (fun iw => .jp (fieldNnn iw)) ∧
  ∀ (s : State) (nnn : Addr12),
    ∃ t, exec (.jp nnn) s = .next t ∧ t.pc.toNat = nnn.toNat ∧ t = { s with pc := t.pc } ∧
      (nnn.toNat = 0xFFF → step t = .fault .addressOutOfRange) ∧ (s.pc.toNat = nnn.toNat → t = s)

/-- R122, R232: CALL pushes the address after it; a full stack, and nothing else, is StackOverflow. A RET with the stack
as the call left it, whatever else has changed, comes back to the pre-call `pc + 2` and the pre-call `sp`. From an
empty stack 16 nested calls succeed, whatever they call, and the 17th faults. The faulting step changes nothing. -/
def Obligations.CallPushesReturnAddress : Prop :=
  encoded 0xF000 0x2000 (fun iw => .call (fieldNnn iw)) ∧
  (∀ (s : State) (nnn : Addr12), s.sp.val < 16 →
    ∃ t, exec (.call nnn) s = .next t ∧ t = { s with S := t.S, sp := t.sp, pc := t.pc } ∧
      t.sp.val = s.sp.val + 1 ∧ t.pc.toNat = nnn.toNat ∧
      (∀ k : Fin 16, t.S[k.val] = if k.val = s.sp.val then s.pc + 2#16 else s.S[k.val]) ∧
      (s.pc.toNat < 0xFFF → (s.pc + 2#16).toNat ≤ 0x1000) ∧
      ∀ u : State, u.S = t.S → u.sp = t.sp → exec .ret u = .next { u with sp := s.sp, pc := s.pc + 2#16 }) ∧
  (∀ (i : Instr) (s : State), exec i s = .fault .stackOverflow ↔ (∃ nnn, i = .call nnn) ∧ s.sp.val = 16) ∧
  (∀ s : State, step s = .fault .stackOverflow → s.apply .step = (s, .fault .stackOverflow)) ∧
  ∀ (s : State) (target : Nat → Addr12), s.sp.val = 0 →
    ∃ at_ : Nat → State, at_ 0 = s ∧ (∀ k, k < 16 → exec (.call (target k)) (at_ k) = .next (at_ (k + 1))) ∧
      (∀ k : Fin 16, (at_ 16).S[k.val] = (at_ k.val).pc + 2#16) ∧
      exec (.call (target 16)) (at_ 16) = .fault .stackOverflow

/-- R123, R124, R129. -/
def Obligations.SkipOnImmediate : Prop :=
  encoded 0xF000 0x3000 (fun iw => .seVxKk (fieldX iw) (fieldKk iw)) ∧
  encoded 0xF000 0x4000 (fun iw => .sneVxKk (fieldX iw) (fieldKk iw)) ∧
  ∀ (s : State) (x : Nibble) (kk : Byte),
    exec (.seVxKk x kk) s =
      .next { s with pc := if (s.readV x).toNat = kk.toNat then s.pc + 4#16 else s.pc + 2#16 } ∧
    exec (.sneVxKk x kk) s =
      .next { s with pc := if (s.readV x).toNat = kk.toNat then s.pc + 2#16 else s.pc + 4#16 }

/-- R125, R126; with `x = y` SE always skips and SNE never does. -/
def Obligations.SkipOnRegisters : Prop :=
  encoded 0xF000 0x5000 (fun iw => .seVxVy (fieldX iw) (fieldY iw)) ∧
  encoded 0xF000 0x9000 (fun iw => .sneVxVy (fieldX iw) (fieldY iw)) ∧
  ∀ (s : State) (x y : Nibble),
    exec (.seVxVy x y) s =
      .next { s with pc := if (s.readV x).toNat = (s.readV y).toNat then s.pc + 4#16 else s.pc + 2#16 } ∧
    exec (.sneVxVy x y) s =
      .next { s with pc := if (s.readV x).toNat = (s.readV y).toNat then s.pc + 2#16 else s.pc + 4#16 } ∧
    exec (.seVxVy x x) s = .next { s with pc := s.pc + 4#16 } ∧
    exec (.sneVxVy x x) s = .next { s with pc := s.pc + 2#16 }

/-- `pc <- V0 + nnn`: always register 0 (R127); that the sum is not reduced to 12 bits, so that a sum of 0xFFF or more
makes the next step fault, is the spec's decision D20 (log entry 10). -/
def Obligations.IndexedJumpSetsPc : Prop :=
  encoded 0xF000 0xB000 (fun iw => .jpV0Nnn (fieldNnn iw)) ∧
  ∀ (s : State) (nnn : Addr12),
    ∃ t, exec (.jpV0Nnn nnn) s = .next t ∧ t = { s with pc := t.pc } ∧
      t.pc.toNat = (s.readV 0x0#4).toNat + nnn.toNat ∧
      (0xFFF ≤ (s.readV 0x0#4).toNat + nnn.toNat → step t = .fault .addressOutOfRange)

/-! ### Loads and arithmetic (`41_load_and_alu.md`) -/

/-- R140, R141: the immediate load, and the immediate add, which wraps and writes no flag. -/
def Obligations.ImmediateForms : Prop :=
  encoded 0xF000 0x6000 (fun iw => .ldVxKk (fieldX iw) (fieldKk iw)) ∧
  encoded 0xF000 0x7000 (fun iw => .addVxKk (fieldX iw) (fieldKk iw)) ∧
  ∀ (s : State) (x : Nibble) (kk : Byte),
    (∃ t, exec (.ldVxKk x kk) s = .next t ∧ setsOne x kk.toNat s t) ∧
    ∃ t, exec (.addVxKk x kk) s = .next t ∧ setsOne x (((s.readV x).toNat + kk.toNat) % 256) s t

/-- The register copy and the bitwise operations, which write no flag. That sub-selector 0 copies, and which of 1, 2, 3 is
OR, AND, XOR, is the spec's decision D4 (log entry 9); that none of them writes `VF` is D25 (log entry 10). -/
def Obligations.CopyAndLogic : Prop :=
  encoded 0xF00F 0x8000 (fun iw => .ldVxVy (fieldX iw) (fieldY iw)) ∧
  encoded 0xF00F 0x8001 (fun iw => .orVxVy (fieldX iw) (fieldY iw)) ∧
  encoded 0xF00F 0x8002 (fun iw => .andVxVy (fieldX iw) (fieldY iw)) ∧
  encoded 0xF00F 0x8003 (fun iw => .xorVxVy (fieldX iw) (fieldY iw)) ∧
  ∀ (s : State) (x y : Nibble),
    (∃ t, exec (.ldVxVy x y) s = .next t ∧ setsOne x (s.readV y).toNat s t) ∧
    (∃ t, exec (.orVxVy x y) s = .next t ∧ setsOne x ((s.readV x).toNat ||| (s.readV y).toNat) s t) ∧
    (∃ t, exec (.andVxVy x y) s = .next t ∧ setsOne x ((s.readV x).toNat &&& (s.readV y).toNat) s t) ∧
    ∃ t, exec (.xorVxVy x y) s = .next t ∧ setsOne x ((s.readV x).toNat ^^^ (s.readV y).toNat) s t

/-- ADD Vx,Vy: the sum mod 256, and `VF` 1 exactly when the 9-bit sum is above 255 (R147). That the result is what `VF`
holds when `x = 0xF` is the spec's decision D8 (log entry 4). -/
def Obligations.AddWritesCarry : Prop :=
  encoded 0xF00F 0x8004 (fun iw => .addVxVy (fieldX iw) (fieldY iw)) ∧
  ∀ (s : State) (x y : Nibble), ∃ t, exec (.addVxVy x y) s = .next t ∧
    setsFlagged x (((s.readV x).toNat + (s.readV y).toNat) % 256) ((s.readV x).toNat + (s.readV y).toNat > 255) s t

/-- SUB is `Vx - Vy`, SUBN is `Vy - Vx`, each mod 256; `VF` is not-borrow, 1 for equal operands. The sub-selectors and the
operand order are the spec's decision D4, the flag of equal operands D10 (log entry 9), and `x = 0xF` D8 (entry 4). -/
def Obligations.SubtractWritesNotBorrow : Prop :=
  encoded 0xF00F 0x8005 (fun iw => .subVxVy (fieldX iw) (fieldY iw)) ∧
  encoded 0xF00F 0x8007 (fun iw => .subnVxVy (fieldX iw) (fieldY iw)) ∧
  ∀ (s : State) (x y : Nibble),
    (∃ t, exec (.subVxVy x y) s = .next t ∧
      setsFlagged x (((s.readV x).toNat + 256 - (s.readV y).toNat) % 256) ((s.readV y).toNat ≤ (s.readV x).toNat) s t) ∧
    ∃ t, exec (.subnVxVy x y) s = .next t ∧
      setsFlagged x (((s.readV y).toNat + 256 - (s.readV x).toNat) % 256) ((s.readV x).toNat ≤ (s.readV y).toNat) s t

/-- SHR and SHL by one; `VF` is the bit shifted out; the `y` field plays no part, whatever it holds. The sub-selectors are
the spec's decision D4, that `Vx` is what is shifted D9 (log entry 9), and `x = 0xF` D8 (entry 4). -/
def Obligations.ShiftsWriteBitOut : Prop :=
  encoded 0xF00F 0x8006 (fun iw => .shrVx (fieldX iw) (fieldY iw)) ∧
  encoded 0xF00F 0x800E (fun iw => .shlVx (fieldX iw) (fieldY iw)) ∧
  ∀ (s : State) (x y : Nibble),
    (∃ t, exec (.shrVx x y) s = .next t ∧
      setsFlagged x ((s.readV x).toNat / 2) ((s.readV x).toNat % 2 = 1) s t) ∧
    ∃ t, exec (.shlVx x y) s = .next t ∧
      setsFlagged x ((s.readV x).toNat * 2 % 256) (128 ≤ (s.readV x).toNat) s t

/-! ### The index register and memory (`42_index_and_memory.md`, `20_memory.md`) -/

/-- R170. -/
def Obligations.IndexLoad : Prop :=
  encoded 0xF000 0xA000 (fun iw => .ldINnn (fieldNnn iw)) ∧
  ∀ (s : State) (nnn : Addr12), ∃ t, exec (.ldINnn nnn) s = .next t ∧
    t = { s with I := t.I, pc := s.pc + 2#16 } ∧ t.I.toNat = nnn.toNat

/-- `I += Vx`, and `I` at the glyph of `Vx` (R171, R172). That the sum wraps at 65536 with no flag, and that the glyph
formula takes all 8 bits of `Vx`, is the spec's decision D12 (log entry 10). For a digit the glyph's first byte is the
digit's own. -/
def Obligations.IndexAddAndGlyph : Prop :=
  encoded 0xF0FF 0xF01E (fun iw => .addIVx (fieldX iw)) ∧ encoded 0xF0FF 0xF029 (fun iw => .ldFVx (fieldX iw)) ∧
  ∀ (s : State) (x : Nibble),
    (∃ t, exec (.addIVx x) s = .next t ∧ t = { s with I := t.I, pc := s.pc + 2#16 } ∧
      t.I.toNat = (s.I.toNat + (s.readV x).toNat) % 65536) ∧
    ∃ t, exec (.ldFVx x) s = .next t ∧ t = { s with I := t.I, pc := s.pc + 2#16 } ∧
      t.I.toNat = 0x50 + 5 * (s.readV x).toNat

/-- The three decimal digits of `Vx`, hundreds at `I` (R173); every byte but these three reads as before. The reduction of
each address mod 4096 is the spec's decision D11 (log entry 5). The bytes are said for a canonical memory
(`EventsKeepInvariant`). -/
def Obligations.DecimalStore : Prop :=
  encoded 0xF0FF 0xF033 (fun iw => .ldBVx (fieldX iw)) ∧
  ∀ (s : State) (x : Nibble), ∃ t, exec (.ldBVx x) s = .next t ∧ t = { s with MEM := t.MEM, pc := s.pc + 2#16 } ∧
    (s.MEM.wf s.FONT = true →
      (t.load s.I.toNat).toNat = (s.readV x).toNat / 100 ∧
      (t.load (s.I.toNat + 1)).toNat = (s.readV x).toNat / 10 % 10 ∧
      (t.load (s.I.toNat + 2)).toNat = (s.readV x).toNat % 10) ∧
    ∀ a, (∀ k, k < 3 → (s.I.toNat + k) % 4096 ≠ a % 4096) → t.load a = s.load a

/-- `V0..Vx` stored at `I ..` (R174); every other byte reads as before. Addresses mod 4096: the spec's decision D11 (log
entry 5). The bytes are said for a canonical memory (`EventsKeepInvariant`). -/
def Obligations.BlockStore : Prop :=
  encoded 0xF0FF 0xF055 (fun iw => .ldIndVx (fieldX iw)) ∧
  ∀ (s : State) (x : Nibble), ∃ t, exec (.ldIndVx x) s = .next t ∧ t = { s with MEM := t.MEM, pc := s.pc + 2#16 } ∧
    (s.MEM.wf s.FONT = true → ∀ r : Nibble, r.toNat ≤ x.toNat → t.load (s.I.toNat + r.toNat) = s.readV r) ∧
    ∀ a, (∀ k, k ≤ x.toNat → (s.I.toNat + k) % 4096 ≠ a % 4096) → t.load a = s.load a

/-- `V0..Vx` loaded from `I ..`, each from its own address; the registers above `Vx` keep their values, and so does all
else (R175). Addresses mod 4096: the spec's decision D11 (log entry 5). -/
def Obligations.BlockLoad : Prop :=
  encoded 0xF0FF 0xF065 (fun iw => .ldVxInd (fieldX iw)) ∧
  ∀ (s : State) (x : Nibble), ∃ t, exec (.ldVxInd x) s = .next t ∧ t = { s with V := t.V, pc := s.pc + 2#16 } ∧
    ∀ r : Nibble, t.readV r = if r.toNat ≤ x.toNat then s.load ((s.I.toNat + r.toNat) % 4096) else s.readV r

/-- One byte written, any byte read: the access is at the address mod 4096 and never fails (`20_memory.md` section 2; the
reduction is the spec's decision D11, log entry 5), and the write keeps the canonical form that is the model's own
(log entry 11). -/
def Obligations.MemoryReadAfterWrite : Prop :=
  ∀ (FONT : Font) (m : Memory) (a b : Nat) (v : Byte), m.wf FONT = true →
    (memWrite FONT m a v).wf FONT = true ∧
    memRead FONT (memWrite FONT m a v) b = if b % 4096 = a % 4096 then v else memRead FONT m b

/-- The canonical form is one: two canonical memories of one machine that read alike at all 4096 addresses are the same data (the
model's own, log entry 11). -/
def Obligations.CanonicalMemoryUnique : Prop :=
  ∀ (FONT : Font) (m n : Memory), m.wf FONT = true → n.wf FONT = true →
    (∀ a, a < 4096 → memRead FONT m a = memRead FONT n a) → m = n

/-- Self-modifying code (R76, derived as the spec marks it): a register block stored over the next instruction is what the
next step executes, with nothing in between; the byte of `V0` is the high byte. The block is stored at `I` mod 4096
(R174; the reduction, for an `I` of 4096 or more, is the spec's decision D11, log entry 5). -/
def Obligations.StoreSeenByNextFetch : Prop :=
  ∀ (s : State) (x : Nibble), s.MEM.wf s.FONT = true → s.pc.toNat < 0xFFD → 1 ≤ x.toNat →
    decodeBytes (s.load s.pc.toNat) (s.load (s.pc.toNat + 1)) = .instr (.ldIndVx x) →
    s.I.toNat % 4096 = s.pc.toNat + 2 →
    ∃ t, step s = .next t ∧ t.fetch = some (wordOfBytes (s.readV 0x0#4) (s.readV 0x1#4)) ∧
      ∀ i, decodeBytes (s.readV 0x0#4) (s.readV 0x1#4) = .instr i → step t = exec i t

/-- R24: a store changes memory and `pc` only, so never a return address, a pixel, a key or a timer; and what a load loads
does not depend on any of them. That a store completes for an `I` of 4096 or more too is the spec's decision D11 (log
entry 5). -/
def Obligations.OnlyMemoryHasAddresses : Prop :=
  (∀ (i : Instr) (s : State), 0 < bytesStored i →
    ∃ t, exec i s = .next t ∧ t = { s with MEM := t.MEM, pc := s.pc + 2#16 }) ∧
  ∀ (x : Nibble) (s s' : State), s'.V = s.V → (∀ a, s'.load a = s.load a) → s'.I = s.I →
    sameOutcome (fun t u => u.V = t.V) (exec (.ldVxInd x) s) (exec (.ldVxInd x) s')

/-! ### The random source (`43_random.md`) -/

/-- RND: one value is taken, whatever `kk` is, and `Vx` is that value and `kk` (R190). The value is a free one: the
sequence `Config.randomByte` is opaque and read at `draws`, the model's own counter (log entry 1; the spec's D17). -/
def Obligations.RandomAndMask : Prop :=
  encoded 0xF000 0xC000 (fun iw => .rndVxKk (fieldX iw) (fieldKk iw)) ∧
  ∀ (s : State) (x : Nibble) (kk : Byte), ∃ t, exec (.rndVxKk x kk) s = .next t ∧
    t = { s with V := t.V, pc := s.pc + 2#16, draws := s.draws + 1 } ∧
    t.readV x = Config.randomByte s.draws &&& kk ∧ (∀ r : Nibble, r ≠ x → t.readV r = s.readV r) ∧
    ∀ b, kk.getLsbD b = false → (t.readV x).getLsbD b = false

/-- Only RND takes a value from the source, exactly one, and no other instruction's outcome depends on how many have been
taken; no host event but a completed step takes one, and Reset does not touch the source (`43_random.md`; the spec's
decision D17; `draws` is the model's own, log entry 1). -/
def Obligations.OnlyRandomDraws : Prop :=
  (∀ (i : Instr) (s t : State), exec i s = .next t → t.draws = if draws i then s.draws + 1 else s.draws) ∧
  (∀ (i : Instr) (s : State) (d : Nat), draws i = false →
    sameOutcome (fun t u => u = { t with draws := d }) (exec i s) (exec i { s with draws := d })) ∧
  ∀ (s : State) (e : Event), (e = .step → ¬ completes s) → (s.apply e).1.draws = s.draws

/-! ### The display (`44_display.md`) -/

/-- R196: every pixel off, `pc + 2`, nothing else. -/
def Obligations.ClearScreen : Prop :=
  encoded 0xF00F 0x0000 (fun _ => .cls) ∧
  ∀ s : State, ∃ t, exec .cls s = .next t ∧ t = { s with FB := t.FB, pc := s.pc + 2#16 } ∧
    ∀ (row : Fin 32) (col : Fin 64), t.pixel row col = false

/-- DRW: exactly the pixels the sprite has a 1 bit at are toggled, rows wrapping, columns clipped; `VF` is 1 exactly when
one of them was on (R197 to R199). Bit 7 first is the spec's decision D14 (log entry 9), operands read before `VF` is
written D7, the `n` rows and `n = 0` D15 (log entry 10), and the sprite addresses mod 4096 D11 (log entry 5). -/
def Obligations.DrawTogglesSprite : Prop :=
  encoded 0xF000 0xD000 (fun iw => .drwVxVyN (fieldX iw) (fieldY iw) (fieldN iw)) ∧
  ∀ (s : State) (x y n : Nibble) (x0 y0 : Nat), x0 = (s.readV x).toNat % 64 → y0 = (s.readV y).toNat % 32 →
    ∃ t, exec (.drwVxVyN x y n) s = .next t ∧ t = { s with V := t.V, FB := t.FB, pc := s.pc + 2#16 } ∧
      (∀ (row : Fin 32) (col : Fin 64), t.pixel row col ≠ s.pixel row col ↔ drawn s x0 y0 n.toNat row col) ∧
      ((∃ row col, drawn s x0 y0 n.toNat row col ∧ s.pixel row col = true) → t.readV 0xF#4 = 0x01#8) ∧
      ((∀ row col, drawn s x0 y0 n.toNat row col → s.pixel row col = false) → t.readV 0xF#4 = 0x00#8) ∧
      ∀ r : Nibble, r ≠ 0xF#4 → t.readV r = s.readV r

/-- The same sprite drawn twice at the same position (R200, derived as the spec marks it): the framebuffer is as before,
and the second draw reports a collision exactly when the first turned some pixel on. The premises say that the position
is the same, which fails only where `x` or `y` is 0xF and the first draw changed it. -/
def Obligations.DoubleDrawRestores : Prop :=
  ∀ (s t : State) (x y n : Nibble), exec (.drwVxVyN x y n) s = .next t →
    (t.readV x).toNat % 64 = (s.readV x).toNat % 64 → (t.readV y).toNat % 32 = (s.readV y).toNat % 32 →
    ∃ u, exec (.drwVxVyN x y n) t = .next u ∧ u.FB = s.FB ∧
      ((∃ row col, s.pixel row col = false ∧ t.pixel row col = true) → u.readV 0xF#4 = 0x01#8) ∧
      ((∀ row col, t.pixel row col = true → s.pixel row col = true) → u.readV 0xF#4 = 0x00#8)

/-! ### The keypad and the timers (`45_keypad_and_timers.md`, `60_exceptions.md`) -/

/-- SKP and SKNP test the level of key `Vx` (R210, R211); for `Vx` above 15 the key is the low four bits of `Vx`, by the
spec's decision D13 (log entry 6). -/
def Obligations.KeySkips : Prop :=
  encoded 0xF00F 0xE00E (fun iw => .skpVx (fieldX iw)) ∧ encoded 0xF00F 0xE001 (fun iw => .sknpVx (fieldX iw)) ∧
  ∀ (s : State) (x k : Nibble), k.toNat = (s.readV x).toNat % 16 →
    exec (.skpVx x) s = .next { s with pc := if s.key k = true then s.pc + 4#16 else s.pc + 2#16 } ∧
    exec (.sknpVx x) s = .next { s with pc := if s.key k = true then s.pc + 2#16 else s.pc + 4#16 }

/-- R213: the lowest pressed key goes to `Vx`; with none pressed nothing changes at all, `pc` included, over any number of
steps, and the first step after a key goes down gives that key and `pc + 2`. -/
def Obligations.KeyWaitPolls : Prop :=
  encoded 0xF0FF 0xF00A (fun iw => .ldVxK (fieldX iw)) ∧
  (∀ (s : State) (x k : Nibble), s.key k = true → (∀ j : Nibble, j.toNat < k.toNat → s.key j = false) →
    ∃ t, exec (.ldVxK x) s = .next t ∧ setsOne x k.toNat s t) ∧
  ∀ (s : State) (x : Nibble), (∀ k : Nibble, s.key k = false) →
    exec (.ldVxK x) s = .next s ∧
    (∀ iw, s.fetch = some iw → decodeWord iw = .instr (.ldVxK x) → ∀ n : Nat,
      s.applyAll (List.replicate n .step) = s ∧
      ∀ k : Nibble, setsOne x k.toNat (s.apply (.setKey k.toNat true)).1
        (s.applyAll (List.replicate n .step ++ [.setKey k.toNat true, .step])))

/-- The three timer instructions; sound plays exactly while `ST` is not 0 (R8). Which of the three patterns does which is
the spec's decision D5, from general knowledge (log entry 9). -/
def Obligations.TimerInstructions : Prop :=
  encoded 0xF0FF 0xF007 (fun iw => .ldVxDT (fieldX iw)) ∧ encoded 0xF0FF 0xF015 (fun iw => .ldDTVx (fieldX iw)) ∧
  encoded 0xF0FF 0xF018 (fun iw => .ldSTVx (fieldX iw)) ∧
  ∀ (s : State) (x : Nibble),
    (∃ t, exec (.ldVxDT x) s = .next t ∧ setsOne x s.DT.toNat s t) ∧
    exec (.ldDTVx x) s = .next { s with DT := s.readV x, pc := s.pc + 2#16 } ∧
    ∃ t, exec (.ldSTVx x) s = .next t ∧ t = { s with ST := s.readV x, pc := s.pc + 2#16 } ∧
      (t.soundPlaying = true ↔ (s.readV x).toNat ≠ 0)

/-- R241, for any number of ticks: each timer goes down by one a tick, stops at 0 and does not wrap; nothing else
changes. -/
def Obligations.TicksCountDown : Prop :=
  ∀ (s : State) (n : Nat), (s.apply .timerTick).2 = .none ∧
    s.applyAll (List.replicate n .timerTick) =
      { s with DT := (s.applyAll (List.replicate n .timerTick)).DT, ST := (s.applyAll (List.replicate n .timerTick)).ST } ∧
    (s.applyAll (List.replicate n .timerTick)).DT.toNat = s.DT.toNat - n ∧
    (s.applyAll (List.replicate n .timerTick)).ST.toNat = s.ST.toNat - n

/-- What a program sees of the delay timer (R217, derived as the spec marks it): over any run of events in which no step
executes an `LD DT,Vx`, it never goes up. -/
def Obligations.DelayTimerNeverRises : Prop :=
  ∀ (es : List Event) (s : State),
    (∀ (before after : List Event) (x : Nibble) (iw : Word), es = before ++ .step :: after →
      (s.applyAll before).fetch = some iw → decodeWord iw ≠ .instr (.ldDTVx x)) →
    (s.applyAll es).DT.toNat ≤ s.DT.toNat

/-- SetKey: one key bit, or a rejection for an index outside 0..15 with nothing changed (`60_exceptions.md` section 4; that
the rejection belongs to the block is the spec's decision D24, log entry 10). -/
def Obligations.SetKeySetsOneKey : Prop :=
  ∀ (s : State) (index : Int) (pressed : Bool),
    (0 ≤ index ∧ index < 16 → ∃ t, s.apply (.setKey index pressed) = (t, .ok) ∧ t = { s with K := t.K } ∧
      ∀ k : Nibble, t.key k = if (k.toNat : Int) = index then pressed else s.key k) ∧
    (index < 0 ∨ 16 ≤ index → s.apply (.setKey index pressed) = (s, .error .invalidKeyIndex))

/-- LoadProgram: byte `i` at `0x200 + i`, nothing else changed; more than 3584 bytes are rejected with nothing changed
(`60_exceptions.md` section 4; what it leaves alone is the spec's decision D24, log entry 10). The bytes are said for a
canonical memory (`EventsKeepInvariant`). -/
def Obligations.LoadProgramPlacesBytes : Prop :=
  ∀ (s : State) (bytes : List Byte),
    (bytes.length ≤ 3584 → ∃ t, s.apply (.loadProgram bytes) = (t, .ok) ∧ t = { s with MEM := t.MEM } ∧
      (s.MEM.wf s.FONT = true → ∀ i (h : i < bytes.length), t.load (0x200 + i) = bytes[i]) ∧
      ∀ a, a < 4096 → (a < 0x200 ∨ 0x200 + bytes.length ≤ a) → t.load a = s.load a) ∧
    (3584 < bytes.length → s.apply (.loadProgram bytes) = (s, .error .programTooLarge))

/-! ### Reset (`70_reset_and_hazards.md`, `10_state.md` R38) -/

/-- What Reset leaves, from any state, so for any `FONT` (`10_state.md` section 11; that `I` and `sp` are among what is
zeroed is the spec's decision D18, log entry 10; that `FONT` is a parameter is D16, log entry 14). The random source alone
is not touched (log entry 1). -/
def Obligations.ResetValues : Prop :=
  ∀ s : State, ∃ t, s.apply .reset = (t, .none) ∧
    (∀ r : Nibble, t.readV r = 0x00) ∧ t.I = 0x0000 ∧ t.pc = 0x0200 ∧ t.sp.val = 0 ∧
    (∀ k : Fin 16, t.S[k.val] = 0x0000) ∧ t.DT = 0x00 ∧ t.ST = 0x00 ∧ (∀ k : Nibble, t.key k = false) ∧
    (∀ (row : Fin 32) (col : Fin 64), t.pixel row col = false) ∧
    (∀ a : Fin 80, t.load (0x50 + a.val) = s.FONT[a.val]) ∧
    (∀ a, a < 4096 → (a < 0x50 ∨ 0x9F < a) → t.load a = 0x00) ∧
    t.FONT = s.FONT ∧ t.draws = s.draws

/-- Reset forgets everything but the machine's parameter `FONT` and the random source: whatever ran before it, from
whatever state, the state after it is the reset state of that machine (`70_reset_and_hazards.md` section 1; the random
source is the spec's decision D17, log entry 1; `FONT` D16, log entry 14). -/
def Obligations.ResetForgets : Prop :=
  ∀ (s : State) (es : List Event), ∃ d, s.applyAll (es ++ [.reset]) = { State.resetWith s.FONT with draws := d } ∧
    s.applyAll (es ++ [.reset, .reset]) = s.applyAll (es ++ [.reset]) ∧ d = (s.applyAll es).draws

/-! ### What an instruction may change and may depend on -/

/-- The writes of the table of R22 (derived, as the spec marks it): a general register that the table does not list as
written by an instruction is unchanged by it. -/
def Obligations.GeneralRegisterFrame : Prop :=
  ∀ (i : Instr) (s t : State), exec i s = .next t →
    ∀ r : Nibble, writesV i r = false → t.readV r = s.readV r

/-- The reads of the table of R22 (derived, as the spec marks it): the outcome depends only on the registers the table
lists as read: two states that differ in other registers end alike, in the same fault or in states that differ only in
registers, each of which either holds the same value in both or has been left alone in both. -/
def Obligations.RegisterReadsAreTabled : Prop :=
  ∀ (i : Instr) (s s' : State), s' = { s with V := s'.V } →
    (∀ r : Nibble, readsV i r = true → s'.readV r = s.readV r) →
    sameOutcome (fun t t' => t' = { t with V := t'.V } ∧
      ∀ r : Nibble, t'.readV r = t.readV r ∨ (t'.readV r = s'.readV r ∧ t.readV r = s.readV r))
      (exec i s) (exec i s')

/-- The writes of the table of R70: every byte outside the ones it lists, `I .. I + k` for the form's own `k`, reads as
before; for a form that stores nothing, every byte. Addresses mod 4096: the spec's decision D11 (log entry 5). -/
def Obligations.MemoryFrame : Prop :=
  ∀ (i : Instr) (s t : State), exec i s = .next t →
    ∀ a, (∀ k, k < bytesStored i → (s.I.toNat + k) % 4096 ≠ a % 4096) → t.load a = s.load a

/-- The reads of the table of R70: no instruction's outcome depends on any byte of memory but its own fetch and the bytes
the table lists as read. Two states that differ in memory (and in the parameter `FONT`, which only memory shows) and agree
on those bytes end alike: in the same fault, or in states that differ in those two only, and, for canonical memories
(`EventsKeepInvariant`; log entry 11), each byte reads alike in both or has been left alone in both: so no byte an
instruction stores depends on a byte it is not listed to read. Addresses mod 4096: the spec's decision D11 (log
entry 5). -/
def Obligations.MemoryReadsAreTabled : Prop :=
  ∀ (i : Instr) (s s' : State), s' = { s with MEM := s'.MEM, FONT := s'.FONT } →
    (∀ k, k < bytesRead i → s'.load (s.I.toNat + k) = s.load (s.I.toNat + k)) →
    sameOutcome (fun t t' => t' = { t with MEM := t'.MEM, FONT := s'.FONT } ∧ t.FONT = s.FONT ∧
      (s.MEM.wf s.FONT = true → s'.MEM.wf s'.FONT = true →
        ∀ a, t'.load a = t.load a ∨ (t'.load a = s'.load a ∧ t.load a = s.load a)))
      (exec i s) (exec i s')

/-- The rest of the table of `10_state.md` section 1: each special register, the stack, the keypad, the framebuffer and the
random source is unchanged by every instruction but those listed as writing it (R25, R31, R32, R33); so is the parameter `FONT`
(R5, log entry 14). -/
def Obligations.SpecialRegisterFrame : Prop :=
  ∀ (i : Instr) (s t : State), exec i s = .next t →
    (writesI i = false → t.I = s.I) ∧ ((∀ nnn, i ≠ .call nnn) → t.S = s.S) ∧
    ((∀ nnn, i ≠ .call nnn) → i ≠ .ret → t.sp = s.sp) ∧ ((∀ x, i ≠ .ldDTVx x) → t.DT = s.DT) ∧
    ((∀ x, i ≠ .ldSTVx x) → t.ST = s.ST) ∧ t.K = s.K ∧ t.FONT = s.FONT ∧
    (i ≠ .cls → (∀ x y n, i ≠ .drwVxVyN x y n) → t.FB = s.FB) ∧ (draws i = false → t.draws = s.draws)

/-! ### Invariants (`10_state.md` R29, R40) -/

/-- The invariant holds after reset, with the default `FONT` and with any (R5). Its bounds on `pc` and the stack are R40's
(derived, as the spec marks it); the canonical memory is the model's own (log entry 11). -/
def Obligations.ResetHasInvariant : Prop := inv State.reset ∧ ∀ FONT : Font, inv (State.resetWith FONT)

/-- Every step keeps the invariant, from every state that has it, reachable or not: the canonical memory, `pc < 0x1100`,
and stack entries of at most 0x1000 (R29, derived as the spec marks it; canonical memory: log entry 11). -/
def Obligations.StepKeepsInvariant : Prop := ∀ s t : State, inv s → step s = .next t → inv t

/-- Every host event keeps it too, with any arguments, accepted or rejected. -/
def Obligations.EventsKeepInvariant : Prop := ∀ (s : State) (e : Event), inv s → inv (s.apply e).1

/-- R40 (derived, as the spec marks it): in every state reachable from Reset by any sequence of events the bounds hold,
with any `FONT`, and a step completes there only from a `pc` of at most 0xFFE (R29). Canonical memory: the model's own,
log entry 11. -/
def Obligations.ReachableStatesBounded : Prop :=
  ∀ s : State, reachable s →
    s.sp.val ≤ 16 ∧ s.pc.toNat < 0x1100 ∧ (∀ k : Fin 16, s.S[k.val].toNat ≤ 0x1000) ∧ s.MEM.wf s.FONT = true ∧
    (completes s → s.pc.toNat ≤ 0xFFE)

/-- The end of a run, by the spec's default for `END_OF_RUN` (R254, its decision D23; log entry 8): once there, a step
changes nothing, and ticks and keys leave the run ended. -/
def Obligations.EndOfRunIsStable : Prop :=
  ∀ s : State, endOfRun s = true →
    (∀ n, s.applyAll (List.replicate n .step) = s) ∧ completes s ∧
    ∀ es : List Event, (∀ e ∈ es, e = .step ∨ e = .timerTick ∨ ∃ k p, e = .setKey k p) →
      endOfRun (s.applyAll es) = true ∧ (s.applyAll es).pc = s.pc

/-! ### The parameter `FONT` (`00_scope.md` R5, `10_state.md` R36) -/

/-- `FONT` is a parameter (R5, R36; the spec's decision D16, log entry 14): on a machine with any 80 bytes no run of events
changes it; stores over the font region change memory only, and after the next Reset glyph `d` is at `0x50 + 5 * d` again,
its rows in order, which is where `LD F,Vx` then points for a digit. -/
def Obligations.FontIsParameter : Prop :=
  ∀ (FONT : Font) (es : List Event),
    ((State.resetWith FONT).applyAll es).FONT = FONT ∧
    ∀ (d : Fin 16) (j : Fin 5) (x : Nibble),
      let t := (State.resetWith FONT).applyAll (es ++ [.reset])
      t.load (0x50 + 5 * d.val + j.val) = FONT[5 * d.val + j.val] ∧
      ∃ u, exec (.ldFVx x) (t.writeV x (BitVec.ofNat 8 d.val)) = .next u ∧
        u.load (u.I.toNat + j.val) = FONT[5 * d.val + j.val]
end

