-- ==== Sys2Proof/Laws/Decode.lean ====
section
/-! SUPPORT. The fields of a word built from its parts, and what the masks of the opcode map ask of a word
(`30_encoding.md` R94, R96, R97). -/

namespace Sys2Proof

@[simp] theorem family_wordNnn (f : Nibble) (a : Addr12) : family (wordNnn f a) = f := by
  ext i hi
  simp only [family, wordNnn, BitVec.getElem_extractLsb', BitVec.getLsbD_append]
  simp [show ¬ 12 + i < 12 by omega, hi, BitVec.getLsbD_eq_getElem]

@[simp] theorem fieldNnn_wordNnn (f : Nibble) (a : Addr12) : fieldNnn (wordNnn f a) = a := by
  ext i hi
  simp only [fieldNnn, wordNnn, BitVec.getElem_extractLsb', BitVec.getLsbD_append]
  simp [hi, BitVec.getLsbD_eq_getElem]

@[simp] theorem family_wordXkk (f x : Nibble) (kk : Byte) : family (wordXkk f x kk) = f := by
  ext i hi
  simp only [family, wordXkk, BitVec.getElem_extractLsb', BitVec.getLsbD_append]
  simp [show ¬ 12 + i < 8 by omega, show ¬ 12 + i - 8 < 4 by omega, show 12 + i - 8 - 4 = i by omega,
    BitVec.getLsbD_eq_getElem, hi]

@[simp] theorem fieldX_wordXkk (f x : Nibble) (kk : Byte) : fieldX (wordXkk f x kk) = x := by
  ext i hi
  simp only [fieldX, wordXkk, BitVec.getElem_extractLsb', BitVec.getLsbD_append]
  simp [show ¬ 8 + i < 8 by omega, hi, BitVec.getLsbD_eq_getElem]

@[simp] theorem fieldKk_wordXkk (f x : Nibble) (kk : Byte) : fieldKk (wordXkk f x kk) = kk := by
  ext i hi
  simp only [fieldKk, wordXkk, BitVec.getElem_extractLsb', BitVec.getLsbD_append]
  simp [hi, BitVec.getLsbD_eq_getElem]

@[simp] theorem fieldN_wordXkk (f x : Nibble) (kk : Byte) : fieldN (wordXkk f x kk) = kk.extractLsb' 0 4 := by
  ext i hi
  simp only [fieldN, wordXkk, BitVec.getElem_extractLsb', BitVec.getLsbD_append]
  simp [show i < 8 by omega]

@[simp] theorem fieldY_wordXkk (f x : Nibble) (kk : Byte) : fieldY (wordXkk f x kk) = kk.extractLsb' 4 4 := by
  ext i hi
  simp only [fieldY, wordXkk, BitVec.getElem_extractLsb', BitVec.getLsbD_append]
  simp [show 4 + i < 8 by omega]

@[simp] theorem family_wordXyn (f x y n : Nibble) : family (wordXyn f x y n) = f := by
  ext i hi
  simp only [family, wordXyn, BitVec.getElem_extractLsb', BitVec.getLsbD_append]
  simp [show ¬ 12 + i < 4 by omega, show ¬ 12 + i - 4 < 4 by omega, show ¬ 12 + i - 4 - 4 < 4 by omega,
    show 12 + i - 4 - 4 - 4 = i by omega, BitVec.getLsbD_eq_getElem, hi]

@[simp] theorem fieldX_wordXyn (f x y n : Nibble) : fieldX (wordXyn f x y n) = x := by
  ext i hi
  simp only [fieldX, wordXyn, BitVec.getElem_extractLsb', BitVec.getLsbD_append]
  simp [show ¬ 8 + i < 4 by omega, show ¬ 8 + i - 4 < 4 by omega, show 8 + i - 4 - 4 = i by omega,
    BitVec.getLsbD_eq_getElem, hi]

@[simp] theorem fieldY_wordXyn (f x y n : Nibble) : fieldY (wordXyn f x y n) = y := by
  ext i hi
  simp only [fieldY, wordXyn, BitVec.getElem_extractLsb', BitVec.getLsbD_append]
  simp [show ¬ 4 + i < 4 by omega, hi, BitVec.getLsbD_eq_getElem]

@[simp] theorem fieldN_wordXyn (f x y n : Nibble) : fieldN (wordXyn f x y n) = n := by
  ext i hi
  simp only [fieldN, wordXyn, BitVec.getElem_extractLsb', BitVec.getLsbD_append]
  simp [hi, BitVec.getLsbD_eq_getElem]

/-- Every word is its family and its low twelve bits. -/
theorem wordNnn_fields (iw : Word) : wordNnn (family iw) (fieldNnn iw) = iw := by
  refine BitVec.eq_of_getLsbD_eq fun i hi => ?_
  simp only [wordNnn, family, fieldNnn, BitVec.getLsbD_append, BitVec.getLsbD_extractLsb']
  by_cases h : i < 12
  · simp [h]
  · simp [h, show i - 12 < 4 by omega, show 12 + (i - 12) = i by omega]

/-- Every word is its four nibbles. -/
theorem wordXyn_fields (iw : Word) : wordXyn (family iw) (fieldX iw) (fieldY iw) (fieldN iw) = iw := by
  refine BitVec.eq_of_getLsbD_eq fun i hi => ?_
  simp only [wordXyn, family, fieldX, fieldY, fieldN, BitVec.getLsbD_append, BitVec.getLsbD_extractLsb']
  by_cases h : i < 4
  · simp [h]
  by_cases h1 : i - 4 < 4
  · simp [h, h1, show 4 + (i - 4) = i by omega]
  by_cases h2 : i - 4 - 4 < 4
  · simp [h, h1, h2, show 8 + (i - 4 - 4) = i by omega]
  · simp [h, h1, h2, show i - 4 - 4 - 4 < 4 by omega, show 12 + (i - 4 - 4 - 4) = i by omega]

/-- Two words are equal when their four nibbles are. -/
theorem word_eq_iff_fields (a b : Word) :
    a = b ↔ family a = family b ∧ fieldX a = fieldX b ∧ fieldY a = fieldY b ∧ fieldN a = fieldN b := by
  refine ⟨fun h => by subst h; exact ⟨rfl, rfl, rfl, rfl⟩, fun ⟨hf, hx, hy, hn⟩ => ?_⟩
  rw [← wordXyn_fields a, ← wordXyn_fields b, hf, hx, hy, hn]

/-- A mask test asks the four nibbles one by one; with a mask and a pattern written out, `simp` decides which. -/
theorem and_eq_iff_fields (iw m b : Word) :
    iw &&& m = b ↔ family iw &&& family m = family b ∧ fieldX iw &&& fieldX m = fieldX b ∧
      fieldY iw &&& fieldY m = fieldY b ∧ fieldN iw &&& fieldN m = fieldN b := by
  rw [word_eq_iff_fields]
  simp [family, fieldX, fieldY, fieldN, BitVec.extractLsb'_and]

/-- `kk` is `y` above `n`. -/
theorem fieldKk_eq_iff (iw : Word) (b : Byte) :
    fieldKk iw = b ↔ fieldY iw = b.extractLsb' 4 4 ∧ fieldN iw = b.extractLsb' 0 4 := by
  constructor
  · rintro rfl
    constructor <;> (ext i hi; simp [fieldKk, fieldY, fieldN])
  · rintro ⟨hy, hn⟩
    refine BitVec.eq_of_getLsbD_eq fun i hi => ?_
    by_cases h : i < 4
    · have := congrArg (fun v => v.getLsbD i) hn
      simpa [fieldN, fieldKk, h, hi] using this
    · have := congrArg (fun v => v.getLsbD (i - 4)) hy
      simpa [fieldY, fieldKk, hi, show i - 4 < 4 by omega, show 4 + (i - 4) = i by omega] using this

theorem nibble_and_F (v : Nibble) : v &&& 0xF#4 = v := BitVec.and_allOnes

/-- The mask of the rows that only the family selects (R97). Write a pattern such as `0x1000` as
`wordXyn 0x1#4 0 0 0`; the two are equal by `rfl`. -/
theorem and_F000_eq_iff (iw : Word) (f : Nibble) : iw &&& 0xF000#16 = wordXyn f 0#4 0#4 0#4 ↔ family iw = f := by
  rw [and_eq_iff_fields, show family 0xF000#16 = 0xF#4 from rfl, show fieldX 0xF000#16 = 0#4 from rfl,
    show fieldY 0xF000#16 = 0#4 from rfl, show fieldN 0xF000#16 = 0#4 from rfl]
  simp [nibble_and_F]

/-- The mask of the rows that the family and the low nibble select (R97). -/
theorem and_F00F_eq_iff (iw : Word) (f n : Nibble) :
    iw &&& 0xF00F#16 = wordXyn f 0#4 0#4 n ↔ family iw = f ∧ fieldN iw = n := by
  rw [and_eq_iff_fields, show family 0xF00F#16 = 0xF#4 from rfl, show fieldX 0xF00F#16 = 0#4 from rfl,
    show fieldY 0xF00F#16 = 0#4 from rfl, show fieldN 0xF00F#16 = 0xF#4 from rfl]
  simp [nibble_and_F]

/-- The mask of the rows that the family and the low byte select (R97). -/
theorem and_F0FF_eq_iff (iw : Word) (f y n : Nibble) :
    iw &&& 0xF0FF#16 = wordXyn f 0#4 y n ↔ family iw = f ∧ fieldY iw = y ∧ fieldN iw = n := by
  rw [and_eq_iff_fields, show family 0xF0FF#16 = 0xF#4 from rfl, show fieldX 0xF0FF#16 = 0#4 from rfl,
    show fieldY 0xF0FF#16 = 0xF#4 from rfl, show fieldN 0xF0FF#16 = 0xF#4 from rfl]
  simp [nibble_and_F]

/-- A word of two bytes has these two bytes, and every word is its two bytes (R66). -/
@[simp] theorem highByte_wordOfBytes (hi lo : Byte) : highByte (wordOfBytes hi lo) = hi := by
  refine BitVec.eq_of_getLsbD_eq fun i h => ?_
  simp only [highByte, wordOfBytes, BitVec.getLsbD_extractLsb', BitVec.getLsbD_append]
  simp [show ¬ 8 + i < 8 by omega, h]

@[simp] theorem lowByte_wordOfBytes (hi lo : Byte) : lowByte (wordOfBytes hi lo) = lo := by
  refine BitVec.eq_of_getLsbD_eq fun i h => ?_
  simp only [lowByte, wordOfBytes, BitVec.getLsbD_extractLsb', BitVec.getLsbD_append]
  simp [h]

@[simp] theorem wordOfBytes_bytes (iw : Word) : wordOfBytes (highByte iw) (lowByte iw) = iw := by
  refine BitVec.eq_of_getLsbD_eq fun i hi => ?_
  simp only [highByte, lowByte, wordOfBytes, BitVec.getLsbD_extractLsb', BitVec.getLsbD_append]
  by_cases h : i < 8
  · simp [h]
  · simp [h, show i - 8 < 8 by omega, show 8 + (i - 8) = i by omega]

/-! ### The canonical words, one by one -/

@[simp] theorem encode_cls : encode .cls = wordNnn 0x0#4 0x0E0#12 := rfl
@[simp] theorem encode_ret : encode .ret = wordNnn 0x0#4 0x0EE#12 := rfl
@[simp] theorem encode_jp (nnn : Addr12) : encode (.jp nnn) = wordNnn 0x1#4 nnn := rfl
@[simp] theorem encode_call (nnn : Addr12) : encode (.call nnn) = wordNnn 0x2#4 nnn := rfl
@[simp] theorem encode_seVxKk (x : Nibble) (kk : Byte) : encode (.seVxKk x kk) = wordXkk 0x3#4 x kk := rfl
@[simp] theorem encode_sneVxKk (x : Nibble) (kk : Byte) : encode (.sneVxKk x kk) = wordXkk 0x4#4 x kk := rfl
@[simp] theorem encode_seVxVy (x y : Nibble) : encode (.seVxVy x y) = wordXyn 0x5#4 x y 0x0#4 := rfl
@[simp] theorem encode_ldVxKk (x : Nibble) (kk : Byte) : encode (.ldVxKk x kk) = wordXkk 0x6#4 x kk := rfl
@[simp] theorem encode_addVxKk (x : Nibble) (kk : Byte) : encode (.addVxKk x kk) = wordXkk 0x7#4 x kk := rfl
@[simp] theorem encode_ldVxVy (x y : Nibble) : encode (.ldVxVy x y) = wordXyn 0x8#4 x y 0x0#4 := rfl
@[simp] theorem encode_orVxVy (x y : Nibble) : encode (.orVxVy x y) = wordXyn 0x8#4 x y 0x1#4 := rfl
@[simp] theorem encode_andVxVy (x y : Nibble) : encode (.andVxVy x y) = wordXyn 0x8#4 x y 0x2#4 := rfl
@[simp] theorem encode_xorVxVy (x y : Nibble) : encode (.xorVxVy x y) = wordXyn 0x8#4 x y 0x3#4 := rfl
@[simp] theorem encode_addVxVy (x y : Nibble) : encode (.addVxVy x y) = wordXyn 0x8#4 x y 0x4#4 := rfl
@[simp] theorem encode_subVxVy (x y : Nibble) : encode (.subVxVy x y) = wordXyn 0x8#4 x y 0x5#4 := rfl
@[simp] theorem encode_shrVx (x y : Nibble) : encode (.shrVx x y) = wordXyn 0x8#4 x y 0x6#4 := rfl
@[simp] theorem encode_subnVxVy (x y : Nibble) : encode (.subnVxVy x y) = wordXyn 0x8#4 x y 0x7#4 := rfl
@[simp] theorem encode_shlVx (x y : Nibble) : encode (.shlVx x y) = wordXyn 0x8#4 x y 0xE#4 := rfl
@[simp] theorem encode_sneVxVy (x y : Nibble) : encode (.sneVxVy x y) = wordXyn 0x9#4 x y 0x0#4 := rfl
@[simp] theorem encode_ldINnn (nnn : Addr12) : encode (.ldINnn nnn) = wordNnn 0xA#4 nnn := rfl
@[simp] theorem encode_jpV0Nnn (nnn : Addr12) : encode (.jpV0Nnn nnn) = wordNnn 0xB#4 nnn := rfl
@[simp] theorem encode_rndVxKk (x : Nibble) (kk : Byte) : encode (.rndVxKk x kk) = wordXkk 0xC#4 x kk := rfl
@[simp] theorem encode_drwVxVyN (x y n : Nibble) : encode (.drwVxVyN x y n) = wordXyn 0xD#4 x y n := rfl
@[simp] theorem encode_skpVx (x : Nibble) : encode (.skpVx x) = wordXkk 0xE#4 x 0x9E#8 := rfl
@[simp] theorem encode_sknpVx (x : Nibble) : encode (.sknpVx x) = wordXkk 0xE#4 x 0xA1#8 := rfl
@[simp] theorem encode_ldVxDT (x : Nibble) : encode (.ldVxDT x) = wordXkk 0xF#4 x 0x07#8 := rfl
@[simp] theorem encode_ldVxK (x : Nibble) : encode (.ldVxK x) = wordXkk 0xF#4 x 0x0A#8 := rfl
@[simp] theorem encode_ldDTVx (x : Nibble) : encode (.ldDTVx x) = wordXkk 0xF#4 x 0x15#8 := rfl
@[simp] theorem encode_ldSTVx (x : Nibble) : encode (.ldSTVx x) = wordXkk 0xF#4 x 0x18#8 := rfl
@[simp] theorem encode_addIVx (x : Nibble) : encode (.addIVx x) = wordXkk 0xF#4 x 0x1E#8 := rfl
@[simp] theorem encode_ldFVx (x : Nibble) : encode (.ldFVx x) = wordXkk 0xF#4 x 0x29#8 := rfl
@[simp] theorem encode_ldBVx (x : Nibble) : encode (.ldBVx x) = wordXkk 0xF#4 x 0x33#8 := rfl
@[simp] theorem encode_ldIndVx (x : Nibble) : encode (.ldIndVx x) = wordXkk 0xF#4 x 0x55#8 := rfl
@[simp] theorem encode_ldVxInd (x : Nibble) : encode (.ldVxInd x) = wordXkk 0xF#4 x 0x65#8 := rfl

/-! ### The decoder, family by family (R95, R96) -/

theorem decodeWord_family0 {iw : Word} (h : family iw = 0x0#4) : decodeWord iw = decodeFamily0 iw := by
  unfold decodeWord; rw [h]; rfl
theorem decodeWord_family1 {iw : Word} (h : family iw = 0x1#4) : decodeWord iw = .instr (.jp (fieldNnn iw)) := by
  unfold decodeWord; rw [h]; rfl
theorem decodeWord_family2 {iw : Word} (h : family iw = 0x2#4) : decodeWord iw = .instr (.call (fieldNnn iw)) := by
  unfold decodeWord; rw [h]; rfl
theorem decodeWord_family3 {iw : Word} (h : family iw = 0x3#4) : decodeWord iw = .instr (.seVxKk (fieldX iw) (fieldKk iw)) := by
  unfold decodeWord; rw [h]; rfl
theorem decodeWord_family4 {iw : Word} (h : family iw = 0x4#4) : decodeWord iw = .instr (.sneVxKk (fieldX iw) (fieldKk iw)) := by
  unfold decodeWord; rw [h]; rfl
theorem decodeWord_family5 {iw : Word} (h : family iw = 0x5#4) : decodeWord iw = .instr (.seVxVy (fieldX iw) (fieldY iw)) := by
  unfold decodeWord; rw [h]; rfl
theorem decodeWord_family6 {iw : Word} (h : family iw = 0x6#4) : decodeWord iw = .instr (.ldVxKk (fieldX iw) (fieldKk iw)) := by
  unfold decodeWord; rw [h]; rfl
theorem decodeWord_family7 {iw : Word} (h : family iw = 0x7#4) : decodeWord iw = .instr (.addVxKk (fieldX iw) (fieldKk iw)) := by
  unfold decodeWord; rw [h]; rfl
theorem decodeWord_family8 {iw : Word} (h : family iw = 0x8#4) : decodeWord iw = decodeFamily8 iw := by
  unfold decodeWord; rw [h]; rfl
theorem decodeWord_family9 {iw : Word} (h : family iw = 0x9#4) : decodeWord iw = .instr (.sneVxVy (fieldX iw) (fieldY iw)) := by
  unfold decodeWord; rw [h]; rfl
theorem decodeWord_familyA {iw : Word} (h : family iw = 0xA#4) : decodeWord iw = .instr (.ldINnn (fieldNnn iw)) := by
  unfold decodeWord; rw [h]; rfl
theorem decodeWord_familyB {iw : Word} (h : family iw = 0xB#4) : decodeWord iw = .instr (.jpV0Nnn (fieldNnn iw)) := by
  unfold decodeWord; rw [h]; rfl
theorem decodeWord_familyC {iw : Word} (h : family iw = 0xC#4) : decodeWord iw = .instr (.rndVxKk (fieldX iw) (fieldKk iw)) := by
  unfold decodeWord; rw [h]; rfl
theorem decodeWord_familyD {iw : Word} (h : family iw = 0xD#4) : decodeWord iw = .instr (.drwVxVyN (fieldX iw) (fieldY iw) (fieldN iw)) := by
  unfold decodeWord; rw [h]; rfl
theorem decodeWord_familyE {iw : Word} (h : family iw = 0xE#4) : decodeWord iw = decodeFamilyE iw := by
  unfold decodeWord; rw [h]; rfl
theorem decodeWord_familyF {iw : Word} (h : family iw = 0xF#4) : decodeWord iw = decodeFamilyF iw := by
  unfold decodeWord; rw [h]; rfl

end Sys2Proof
end

