-- ==== Sys2Proof/Laws/Memory.lean ====
section
/-! SUPPORT. The laws of memory: the reset contents, a read after a write, and the canonical form kept by every operation
(`20_memory.md` R64, R65, R69). -/

namespace Sys2Proof.Machine

variable {FONT : Font}

/-- An unlisted address of the font region reads as its byte of `FONT` (R36). -/
theorem resetByte_font (k : Nat) (hk : k < 80) : resetByte FONT (0x50 + k) = FONT[k] := by
  have h : 0x50 ≤ 0x50 + k ∧ 0x50 + k ≤ 0x9F := by omega
  have hs : 0x50 + k - 0x50 = k := by omega
  simp only [resetByte, dif_pos h, hs]

/-- Every other unlisted address reads as 0 (R38). -/
theorem resetByte_other (a : Nat) (h : a < 0x50 ∨ 0x9F < a) : resetByte FONT a = 0x00#8 :=
  dif_neg (by omega)

/-- In a canonical memory that starts above `a`, `a` is unlisted. -/
theorem Memory.read_of_lt {lo : Nat} {m : Memory} (h : Memory.wfFrom FONT lo m = true) {a : Nat} (ha : a < lo) :
    Memory.read FONT m a = resetByte FONT a := by
  induction m generalizing lo with
  | nil => rfl
  | cons c m ih =>
    obtain ⟨b, w⟩ := c
    simp only [Memory.wfFrom, Bool.and_eq_true, decide_eq_true_eq] at h
    have hb : a ≠ b := by omega
    simp only [Memory.read, if_neg hb]
    exact ih h.2 (by omega)

theorem Memory.wfFrom_mono {lo lo' : Nat} {m : Memory} (h : Memory.wfFrom FONT lo m = true) (hl : lo' ≤ lo) :
    Memory.wfFrom FONT lo' m = true := by
  cases m with
  | nil => rfl
  | cons c m =>
    obtain ⟨b, w⟩ := c
    simp only [Memory.wfFrom, Bool.and_eq_true, decide_eq_true_eq] at h ⊢
    exact ⟨⟨⟨by omega, h.1.1.2⟩, h.1.2⟩, h.2⟩

theorem Memory.read_cons_self {lo : Nat} {m : Memory} (h : Memory.wfFrom FONT lo m = true) {a : Nat} (ha : a < lo) (v : Byte) :
    Memory.read FONT (Memory.cons FONT a v m) a = v := by
  unfold Memory.cons
  split
  · next hv => rw [Memory.read_of_lt h ha, hv]
  · simp [Memory.read]

theorem Memory.read_cons_other (m : Memory) {a b : Nat} (hb : b ≠ a) (v : Byte) :
    Memory.read FONT (Memory.cons FONT a v m) b = Memory.read FONT m b := by
  unfold Memory.cons
  split
  · rfl
  · simp [Memory.read, hb]

theorem Memory.wfFrom_cons {lo a : Nat} {m : Memory} (hlo : lo ≤ a) (ha : a < 4096)
    (h : Memory.wfFrom FONT (a + 1) m = true) (v : Byte) : Memory.wfFrom FONT lo (Memory.cons FONT a v m) = true := by
  unfold Memory.cons
  split
  · exact Memory.wfFrom_mono h (by omega)
  · next hv => simp [Memory.wfFrom, hlo, ha, hv, h]

/-- A write keeps the canonical form. -/
theorem Memory.wfFrom_write {lo : Nat} {m : Memory} (h : Memory.wfFrom FONT lo m = true) {a : Nat} (hlo : lo ≤ a)
    (ha : a < 4096) (v : Byte) : Memory.wfFrom FONT lo (Memory.write FONT m a v) = true := by
  induction m generalizing lo with
  | nil => exact Memory.wfFrom_cons hlo ha rfl v
  | cons c m ih =>
    obtain ⟨b, w⟩ := c
    simp only [Memory.wfFrom, Bool.and_eq_true, decide_eq_true_eq] at h
    unfold Memory.write
    split
    · exact Memory.wfFrom_cons hlo ha
        (by simp only [Memory.wfFrom, Bool.and_eq_true, decide_eq_true_eq]; exact ⟨⟨⟨by omega, h.1.1.2⟩, h.1.2⟩, h.2⟩) v
    · split
      · next hab => subst hab; exact Memory.wfFrom_cons hlo ha h.2 v
      · simp only [Memory.wfFrom, Bool.and_eq_true, decide_eq_true_eq]
        exact ⟨h.1, ih h.2 (by omega)⟩

theorem Memory.wf_write {m : Memory} (h : m.wf FONT = true) {a : Nat} (ha : a < 4096) (v : Byte) :
    (Memory.write FONT m a v).wf FONT = true := Memory.wfFrom_write h (Nat.zero_le a) ha v

/-- A byte reads as what was last written to it. -/
theorem Memory.read_write_same {lo : Nat} {m : Memory} (h : Memory.wfFrom FONT lo m = true) (a : Nat) (v : Byte) :
    Memory.read FONT (Memory.write FONT m a v) a = v := by
  induction m generalizing lo with
  | nil => exact Memory.read_cons_self (lo := a + 1) rfl (by omega) v
  | cons c m ih =>
    obtain ⟨b, w⟩ := c
    have h' := h
    simp only [Memory.wfFrom, Bool.and_eq_true, decide_eq_true_eq] at h
    unfold Memory.write
    split
    · refine Memory.read_cons_self (lo := b) ?_ (by assumption) v
      simp only [Memory.wfFrom, Bool.and_eq_true, decide_eq_true_eq]
      exact ⟨⟨⟨by omega, h.1.1.2⟩, h.1.2⟩, h.2⟩
    · split
      · next hab => exact Memory.read_cons_self h.2 (by omega) v
      · next hab => simp only [Memory.read, if_neg hab]; exact ih h.2

/-- A write touches no other byte; this needs no canonical form. -/
theorem Memory.read_write_other (m : Memory) {a b : Nat} (hb : b ≠ a) (v : Byte) :
    Memory.read FONT (Memory.write FONT m a v) b = Memory.read FONT m b := by
  induction m with
  | nil => exact Memory.read_cons_other [] hb v
  | cons c m ih =>
    obtain ⟨d, w⟩ := c
    unfold Memory.write
    split
    · exact Memory.read_cons_other _ hb v
    · split
      · next had => subst had; rw [Memory.read_cons_other _ hb]; simp [Memory.read, hb]
      · simp only [Memory.read]; split
        · rfl
        · exact ih

/-- The canonical form is kept by a sequence of stores. -/
theorem memWriteList_wf {m : Memory} (h : m.wf FONT = true) (a : Nat) (vs : List Byte) : (memWriteList FONT m a vs).wf FONT = true := by
  induction vs generalizing m a with
  | nil => exact h
  | cons v vs ih => exact ih (Memory.wf_write h (Nat.mod_lt _ (by decide)) v) (a + 1)

/-- A sequence of stores touches no byte but those at its own addresses. -/
theorem memRead_memWriteList_other (m : Memory) (a : Nat) (vs : List Byte) (b : Nat)
    (hb : ∀ k, k < vs.length → (a + k) % 4096 ≠ b % 4096) : memRead FONT (memWriteList FONT m a vs) b = memRead FONT m b := by
  induction vs generalizing m a with
  | nil => rfl
  | cons v vs ih =>
    have h0 := hb 0 (by simp)
    refine (ih (memWrite FONT m a v) (a + 1) fun k hk => ?_).trans ?_
    · have := hb (k + 1) (by simpa using hk)
      rwa [show a + 1 + k = a + (k + 1) by omega]
    · exact Memory.read_write_other m (by simpa using Ne.symm h0) v

/-- Byte `k` of a sequence of at most 4096 stores is at the sequence's address `k`. -/
theorem memRead_memWriteList_get {m : Memory} (h : m.wf FONT = true) (a : Nat) (vs : List Byte) (hl : vs.length ≤ 4096)
    (k : Nat) (hk : k < vs.length) : memRead FONT (memWriteList FONT m a vs) (a + k) = vs[k] := by
  induction vs generalizing m a k with
  | nil => simp at hk
  | cons v vs ih =>
    simp only [List.length_cons] at hl hk
    cases k with
    | zero =>
      show memRead FONT (memWriteList FONT (memWrite FONT m a v) (a + 1) vs) a = v
      refine (memRead_memWriteList_other _ _ _ _ fun j hj => by omega).trans ?_
      exact Memory.read_write_same h _ v
    | succ k =>
      have := ih (Memory.wf_write h (Nat.mod_lt a (by decide : 0 < 4096)) v) (a + 1) (by omega) k (by omega)
      rw [show a + 1 + k = a + (k + 1) by omega] at this
      simpa [memWriteList, memWrite] using this

end Sys2Proof.Machine
end

