-- ==== Sys2Proof/Laws/State.lean ====
section
/-! SUPPORT. One lemma per field per update of the state, so that no later proof unfolds a record update; and the read
of a register after a write. -/

namespace Sys2Proof.Machine

@[simp] theorem State.writeV_V (s : State) (x : Nibble) (v : Byte) : (s.writeV x v).V = s.V.set x.toNat v x.isLt := rfl
@[simp] theorem State.writeV_MEM (s : State) (x : Nibble) (v : Byte) : (s.writeV x v).MEM = s.MEM := rfl
@[simp] theorem State.writeV_I (s : State) (x : Nibble) (v : Byte) : (s.writeV x v).I = s.I := rfl
@[simp] theorem State.writeV_pc (s : State) (x : Nibble) (v : Byte) : (s.writeV x v).pc = s.pc := rfl
@[simp] theorem State.writeV_S (s : State) (x : Nibble) (v : Byte) : (s.writeV x v).S = s.S := rfl
@[simp] theorem State.writeV_sp (s : State) (x : Nibble) (v : Byte) : (s.writeV x v).sp = s.sp := rfl
@[simp] theorem State.writeV_DT (s : State) (x : Nibble) (v : Byte) : (s.writeV x v).DT = s.DT := rfl
@[simp] theorem State.writeV_ST (s : State) (x : Nibble) (v : Byte) : (s.writeV x v).ST = s.ST := rfl
@[simp] theorem State.writeV_K (s : State) (x : Nibble) (v : Byte) : (s.writeV x v).K = s.K := rfl
@[simp] theorem State.writeV_FB (s : State) (x : Nibble) (v : Byte) : (s.writeV x v).FB = s.FB := rfl
@[simp] theorem State.writeV_draws (s : State) (x : Nibble) (v : Byte) : (s.writeV x v).draws = s.draws := rfl
@[simp] theorem State.writeV_FONT (s : State) (x : Nibble) (v : Byte) : (s.writeV x v).FONT = s.FONT := rfl

@[simp] theorem State.setPc_V (s : State) (target : Word) : (s.setPc target).V = s.V := rfl
@[simp] theorem State.setPc_MEM (s : State) (target : Word) : (s.setPc target).MEM = s.MEM := rfl
@[simp] theorem State.setPc_I (s : State) (target : Word) : (s.setPc target).I = s.I := rfl
@[simp] theorem State.setPc_pc (s : State) (target : Word) : (s.setPc target).pc = target := rfl
@[simp] theorem State.setPc_S (s : State) (target : Word) : (s.setPc target).S = s.S := rfl
@[simp] theorem State.setPc_sp (s : State) (target : Word) : (s.setPc target).sp = s.sp := rfl
@[simp] theorem State.setPc_DT (s : State) (target : Word) : (s.setPc target).DT = s.DT := rfl
@[simp] theorem State.setPc_ST (s : State) (target : Word) : (s.setPc target).ST = s.ST := rfl
@[simp] theorem State.setPc_K (s : State) (target : Word) : (s.setPc target).K = s.K := rfl
@[simp] theorem State.setPc_FB (s : State) (target : Word) : (s.setPc target).FB = s.FB := rfl
@[simp] theorem State.setPc_draws (s : State) (target : Word) : (s.setPc target).draws = s.draws := rfl
@[simp] theorem State.setPc_FONT (s : State) (target : Word) : (s.setPc target).FONT = s.FONT := rfl

@[simp] theorem State.advance_V (s : State) : (s.advance).V = s.V := rfl
@[simp] theorem State.advance_MEM (s : State) : (s.advance).MEM = s.MEM := rfl
@[simp] theorem State.advance_I (s : State) : (s.advance).I = s.I := rfl
@[simp] theorem State.advance_pc (s : State) : (s.advance).pc = s.pc + 2#16 := rfl
@[simp] theorem State.advance_S (s : State) : (s.advance).S = s.S := rfl
@[simp] theorem State.advance_sp (s : State) : (s.advance).sp = s.sp := rfl
@[simp] theorem State.advance_DT (s : State) : (s.advance).DT = s.DT := rfl
@[simp] theorem State.advance_ST (s : State) : (s.advance).ST = s.ST := rfl
@[simp] theorem State.advance_K (s : State) : (s.advance).K = s.K := rfl
@[simp] theorem State.advance_FB (s : State) : (s.advance).FB = s.FB := rfl
@[simp] theorem State.advance_draws (s : State) : (s.advance).draws = s.draws := rfl
@[simp] theorem State.advance_FONT (s : State) : (s.advance).FONT = s.FONT := rfl

@[simp] theorem State.setI_V (s : State) (v : Word) : (s.setI v).V = s.V := rfl
@[simp] theorem State.setI_MEM (s : State) (v : Word) : (s.setI v).MEM = s.MEM := rfl
@[simp] theorem State.setI_I (s : State) (v : Word) : (s.setI v).I = v := rfl
@[simp] theorem State.setI_pc (s : State) (v : Word) : (s.setI v).pc = s.pc := rfl
@[simp] theorem State.setI_S (s : State) (v : Word) : (s.setI v).S = s.S := rfl
@[simp] theorem State.setI_sp (s : State) (v : Word) : (s.setI v).sp = s.sp := rfl
@[simp] theorem State.setI_DT (s : State) (v : Word) : (s.setI v).DT = s.DT := rfl
@[simp] theorem State.setI_ST (s : State) (v : Word) : (s.setI v).ST = s.ST := rfl
@[simp] theorem State.setI_K (s : State) (v : Word) : (s.setI v).K = s.K := rfl
@[simp] theorem State.setI_FB (s : State) (v : Word) : (s.setI v).FB = s.FB := rfl
@[simp] theorem State.setI_draws (s : State) (v : Word) : (s.setI v).draws = s.draws := rfl
@[simp] theorem State.setI_FONT (s : State) (v : Word) : (s.setI v).FONT = s.FONT := rfl

@[simp] theorem State.setDT_V (s : State) (v : Byte) : (s.setDT v).V = s.V := rfl
@[simp] theorem State.setDT_MEM (s : State) (v : Byte) : (s.setDT v).MEM = s.MEM := rfl
@[simp] theorem State.setDT_I (s : State) (v : Byte) : (s.setDT v).I = s.I := rfl
@[simp] theorem State.setDT_pc (s : State) (v : Byte) : (s.setDT v).pc = s.pc := rfl
@[simp] theorem State.setDT_S (s : State) (v : Byte) : (s.setDT v).S = s.S := rfl
@[simp] theorem State.setDT_sp (s : State) (v : Byte) : (s.setDT v).sp = s.sp := rfl
@[simp] theorem State.setDT_DT (s : State) (v : Byte) : (s.setDT v).DT = v := rfl
@[simp] theorem State.setDT_ST (s : State) (v : Byte) : (s.setDT v).ST = s.ST := rfl
@[simp] theorem State.setDT_K (s : State) (v : Byte) : (s.setDT v).K = s.K := rfl
@[simp] theorem State.setDT_FB (s : State) (v : Byte) : (s.setDT v).FB = s.FB := rfl
@[simp] theorem State.setDT_draws (s : State) (v : Byte) : (s.setDT v).draws = s.draws := rfl
@[simp] theorem State.setDT_FONT (s : State) (v : Byte) : (s.setDT v).FONT = s.FONT := rfl

@[simp] theorem State.setST_V (s : State) (v : Byte) : (s.setST v).V = s.V := rfl
@[simp] theorem State.setST_MEM (s : State) (v : Byte) : (s.setST v).MEM = s.MEM := rfl
@[simp] theorem State.setST_I (s : State) (v : Byte) : (s.setST v).I = s.I := rfl
@[simp] theorem State.setST_pc (s : State) (v : Byte) : (s.setST v).pc = s.pc := rfl
@[simp] theorem State.setST_S (s : State) (v : Byte) : (s.setST v).S = s.S := rfl
@[simp] theorem State.setST_sp (s : State) (v : Byte) : (s.setST v).sp = s.sp := rfl
@[simp] theorem State.setST_DT (s : State) (v : Byte) : (s.setST v).DT = s.DT := rfl
@[simp] theorem State.setST_ST (s : State) (v : Byte) : (s.setST v).ST = v := rfl
@[simp] theorem State.setST_K (s : State) (v : Byte) : (s.setST v).K = s.K := rfl
@[simp] theorem State.setST_FB (s : State) (v : Byte) : (s.setST v).FB = s.FB := rfl
@[simp] theorem State.setST_draws (s : State) (v : Byte) : (s.setST v).draws = s.draws := rfl
@[simp] theorem State.setST_FONT (s : State) (v : Byte) : (s.setST v).FONT = s.FONT := rfl

@[simp] theorem State.setFB_V (s : State) (rows : Vector PixelRow 32) : (s.setFB rows).V = s.V := rfl
@[simp] theorem State.setFB_MEM (s : State) (rows : Vector PixelRow 32) : (s.setFB rows).MEM = s.MEM := rfl
@[simp] theorem State.setFB_I (s : State) (rows : Vector PixelRow 32) : (s.setFB rows).I = s.I := rfl
@[simp] theorem State.setFB_pc (s : State) (rows : Vector PixelRow 32) : (s.setFB rows).pc = s.pc := rfl
@[simp] theorem State.setFB_S (s : State) (rows : Vector PixelRow 32) : (s.setFB rows).S = s.S := rfl
@[simp] theorem State.setFB_sp (s : State) (rows : Vector PixelRow 32) : (s.setFB rows).sp = s.sp := rfl
@[simp] theorem State.setFB_DT (s : State) (rows : Vector PixelRow 32) : (s.setFB rows).DT = s.DT := rfl
@[simp] theorem State.setFB_ST (s : State) (rows : Vector PixelRow 32) : (s.setFB rows).ST = s.ST := rfl
@[simp] theorem State.setFB_K (s : State) (rows : Vector PixelRow 32) : (s.setFB rows).K = s.K := rfl
@[simp] theorem State.setFB_FB (s : State) (rows : Vector PixelRow 32) : (s.setFB rows).FB = rows := rfl
@[simp] theorem State.setFB_draws (s : State) (rows : Vector PixelRow 32) : (s.setFB rows).draws = s.draws := rfl
@[simp] theorem State.setFB_FONT (s : State) (rows : Vector PixelRow 32) : (s.setFB rows).FONT = s.FONT := rfl

@[simp] theorem State.storeList_V (s : State) (a : Nat) (vs : List Byte) : (s.storeList a vs).V = s.V := rfl
@[simp] theorem State.storeList_MEM (s : State) (a : Nat) (vs : List Byte) : (s.storeList a vs).MEM = memWriteList s.FONT s.MEM a vs := rfl
@[simp] theorem State.storeList_I (s : State) (a : Nat) (vs : List Byte) : (s.storeList a vs).I = s.I := rfl
@[simp] theorem State.storeList_pc (s : State) (a : Nat) (vs : List Byte) : (s.storeList a vs).pc = s.pc := rfl
@[simp] theorem State.storeList_S (s : State) (a : Nat) (vs : List Byte) : (s.storeList a vs).S = s.S := rfl
@[simp] theorem State.storeList_sp (s : State) (a : Nat) (vs : List Byte) : (s.storeList a vs).sp = s.sp := rfl
@[simp] theorem State.storeList_DT (s : State) (a : Nat) (vs : List Byte) : (s.storeList a vs).DT = s.DT := rfl
@[simp] theorem State.storeList_ST (s : State) (a : Nat) (vs : List Byte) : (s.storeList a vs).ST = s.ST := rfl
@[simp] theorem State.storeList_K (s : State) (a : Nat) (vs : List Byte) : (s.storeList a vs).K = s.K := rfl
@[simp] theorem State.storeList_FB (s : State) (a : Nat) (vs : List Byte) : (s.storeList a vs).FB = s.FB := rfl
@[simp] theorem State.storeList_draws (s : State) (a : Nat) (vs : List Byte) : (s.storeList a vs).draws = s.draws := rfl
@[simp] theorem State.storeList_FONT (s : State) (a : Nat) (vs : List Byte) : (s.storeList a vs).FONT = s.FONT := rfl

@[simp] theorem State.draw_state_V (s : State) : s.draw.2.V = s.V := rfl
@[simp] theorem State.draw_state_MEM (s : State) : s.draw.2.MEM = s.MEM := rfl
@[simp] theorem State.draw_state_I (s : State) : s.draw.2.I = s.I := rfl
@[simp] theorem State.draw_state_pc (s : State) : s.draw.2.pc = s.pc := rfl
@[simp] theorem State.draw_state_S (s : State) : s.draw.2.S = s.S := rfl
@[simp] theorem State.draw_state_sp (s : State) : s.draw.2.sp = s.sp := rfl
@[simp] theorem State.draw_state_DT (s : State) : s.draw.2.DT = s.DT := rfl
@[simp] theorem State.draw_state_ST (s : State) : s.draw.2.ST = s.ST := rfl
@[simp] theorem State.draw_state_K (s : State) : s.draw.2.K = s.K := rfl
@[simp] theorem State.draw_state_FB (s : State) : s.draw.2.FB = s.FB := rfl
@[simp] theorem State.draw_state_draws (s : State) : s.draw.2.draws = s.draws + 1 := rfl
@[simp] theorem State.draw_state_FONT (s : State) : s.draw.2.FONT = s.FONT := rfl
@[simp] theorem State.draw_value (s : State) : s.draw.1 = Config.randomByte s.draws := rfl

@[simp] theorem State.skipIf_V (s : State) (c : Bool) : (s.skipIf c).V = s.V := by cases c <;> rfl
@[simp] theorem State.skipIf_MEM (s : State) (c : Bool) : (s.skipIf c).MEM = s.MEM := by cases c <;> rfl
@[simp] theorem State.skipIf_I (s : State) (c : Bool) : (s.skipIf c).I = s.I := by cases c <;> rfl
@[simp] theorem State.skipIf_S (s : State) (c : Bool) : (s.skipIf c).S = s.S := by cases c <;> rfl
@[simp] theorem State.skipIf_sp (s : State) (c : Bool) : (s.skipIf c).sp = s.sp := by cases c <;> rfl
@[simp] theorem State.skipIf_DT (s : State) (c : Bool) : (s.skipIf c).DT = s.DT := by cases c <;> rfl
@[simp] theorem State.skipIf_ST (s : State) (c : Bool) : (s.skipIf c).ST = s.ST := by cases c <;> rfl
@[simp] theorem State.skipIf_K (s : State) (c : Bool) : (s.skipIf c).K = s.K := by cases c <;> rfl
@[simp] theorem State.skipIf_FB (s : State) (c : Bool) : (s.skipIf c).FB = s.FB := by cases c <;> rfl
@[simp] theorem State.skipIf_draws (s : State) (c : Bool) : (s.skipIf c).draws = s.draws := by cases c <;> rfl
@[simp] theorem State.skipIf_FONT (s : State) (c : Bool) : (s.skipIf c).FONT = s.FONT := by cases c <;> rfl
@[simp] theorem State.skipIf_pc (s : State) (c : Bool) : (s.skipIf c).pc = if c then s.pc + 4#16 else s.pc + 2#16 := by
  cases c <;> rfl

@[simp] theorem State.writeFlagged_MEM (s : State) (x : Nibble) (r : Byte × Bool) : (s.writeFlagged x r).MEM = s.MEM := rfl
@[simp] theorem State.writeFlagged_I (s : State) (x : Nibble) (r : Byte × Bool) : (s.writeFlagged x r).I = s.I := rfl
@[simp] theorem State.writeFlagged_pc (s : State) (x : Nibble) (r : Byte × Bool) : (s.writeFlagged x r).pc = s.pc := rfl
@[simp] theorem State.writeFlagged_S (s : State) (x : Nibble) (r : Byte × Bool) : (s.writeFlagged x r).S = s.S := rfl
@[simp] theorem State.writeFlagged_sp (s : State) (x : Nibble) (r : Byte × Bool) : (s.writeFlagged x r).sp = s.sp := rfl
@[simp] theorem State.writeFlagged_DT (s : State) (x : Nibble) (r : Byte × Bool) : (s.writeFlagged x r).DT = s.DT := rfl
@[simp] theorem State.writeFlagged_ST (s : State) (x : Nibble) (r : Byte × Bool) : (s.writeFlagged x r).ST = s.ST := rfl
@[simp] theorem State.writeFlagged_K (s : State) (x : Nibble) (r : Byte × Bool) : (s.writeFlagged x r).K = s.K := rfl
@[simp] theorem State.writeFlagged_FB (s : State) (x : Nibble) (r : Byte × Bool) : (s.writeFlagged x r).FB = s.FB := rfl
@[simp] theorem State.writeFlagged_draws (s : State) (x : Nibble) (r : Byte × Bool) : (s.writeFlagged x r).draws = s.draws := rfl
@[simp] theorem State.writeFlagged_FONT (s : State) (x : Nibble) (r : Byte × Bool) : (s.writeFlagged x r).FONT = s.FONT := rfl

/-- A register reads as what was last written to it, and a write touches no other register (R20). -/
@[simp] theorem State.readV_writeV (s : State) (x r : Nibble) (v : Byte) :
    (s.writeV x v).readV r = if r = x then v else s.readV r := by
  by_cases h : r = x
  · subst h; simp [State.readV]
  · have hn : x.toNat ≠ r.toNat := fun e => h (BitVec.eq_of_toNat_eq e.symm)
    simp [State.readV, h, hn]

/-- Registers are equal when every one reads the same. -/
theorem State.V_ext {s t : State} (h : ∀ r, t.readV r = s.readV r) : t.V = s.V := by
  refine Vector.ext fun i hi => ?_
  have := h (BitVec.ofNat 4 i)
  simpa [State.readV, Nat.mod_eq_of_lt hi] using this

@[simp] theorem State.readV_setPc (s : State) (target : Word) (r : Nibble) : (s.setPc target).readV r = s.readV r := rfl
@[simp] theorem State.readV_advance (s : State) (r : Nibble) : (s.advance).readV r = s.readV r := rfl
@[simp] theorem State.readV_setI (s : State) (v : Word) (r : Nibble) : (s.setI v).readV r = s.readV r := rfl
@[simp] theorem State.readV_setDT (s : State) (v : Byte) (r : Nibble) : (s.setDT v).readV r = s.readV r := rfl
@[simp] theorem State.readV_setST (s : State) (v : Byte) (r : Nibble) : (s.setST v).readV r = s.readV r := rfl
@[simp] theorem State.readV_setFB (s : State) (rows : Vector PixelRow 32) (r : Nibble) : (s.setFB rows).readV r = s.readV r := rfl
@[simp] theorem State.readV_storeList (s : State) (a : Nat) (vs : List Byte) (r : Nibble) : (s.storeList a vs).readV r = s.readV r := rfl
@[simp] theorem State.readV_draw (s : State) (r : Nibble) : s.draw.2.readV r = s.readV r := rfl
@[simp] theorem State.readV_skipIf (s : State) (c : Bool) (r : Nibble) : (s.skipIf c).readV r = s.readV r := by
  cases c <;> rfl

/-- The flag goes to `VF` unless `x = 0xF`, in which case the result is what remains (R142). -/
@[simp] theorem State.readV_writeFlagged (s : State) (x r : Nibble) (p : Byte × Bool) :
    (s.writeFlagged x p).readV r = if r = x then p.1 else if r = 0xF#4 then flagByte p.2 else s.readV r := by
  simp [State.writeFlagged]

end Sys2Proof.Machine
end

