-- ==== Sys2Proof/Laws/Ops.lean ====
section
/-! SUPPORT. What each shared operation does, said once: the call stack, the fetch, loads and stores through the state,
the register block, the key scan and the sprite engine. -/

namespace Sys2Proof.Machine

/-! ### Call stack -/

theorem State.push_of_lt (s : State) (v : Word) (h : s.sp.val < 16) :
    s.push v = some { s with S := s.S.set s.sp.val v h, sp := ⟨s.sp.val + 1, Nat.succ_lt_succ h⟩ } := by
  simp [State.push, h]

theorem State.push_of_full (s : State) (v : Word) (h : s.sp.val = 16) : s.push v = none := by
  simp [State.push, h]

theorem State.pop_of_empty (s : State) (h : s.sp.val = 0) : s.pop = none := by simp [State.pop, h]

theorem State.pop_of_pos (s : State) (h : s.sp.val ≠ 0) :
    s.pop = some (s.S[s.sp.val - 1]'(by have := s.sp.isLt; omega),
      { s with sp := ⟨s.sp.val - 1, by have := s.sp.isLt; omega⟩ }) := by
  simp [State.pop, h]

/-! ### Fetch -/

theorem State.fetch_eq_none (s : State) : s.fetch = none ↔ 0xFFF ≤ s.pc.toNat := by
  unfold State.fetch
  split <;> simp <;> omega

theorem State.fetch_of_lt (s : State) (h : s.pc.toNat < 0xFFF) :
    s.fetch = some (wordOfBytes (s.load s.pc.toNat) (s.load (s.pc.toNat + 1))) := by
  have h1 : s.pc.toNat % 4096 = s.pc.toNat := Nat.mod_eq_of_lt (by omega)
  have h2 : (s.pc.toNat + 1) % 4096 = s.pc.toNat + 1 := Nat.mod_eq_of_lt (by omega)
  simp [State.fetch, State.load, memRead, h1, h2]
  omega

/-! ### Loads and stores through the state -/

theorem State.load_storeList_other (s : State) (a : Nat) (vs : List Byte) (b : Nat)
    (hb : ∀ k, k < vs.length → (a + k) % 4096 ≠ b % 4096) : (s.storeList a vs).load b = s.load b :=
  memRead_memWriteList_other s.MEM a vs b hb

theorem State.load_storeList_get (s : State) (h : s.MEM.wf s.FONT = true) (a : Nat) (vs : List Byte) (hl : vs.length ≤ 4096)
    (k : Nat) (hk : k < vs.length) : (s.storeList a vs).load (a + k) = vs[k] :=
  memRead_memWriteList_get h a vs hl k hk

/-- The address counts only mod 4096 (R64). -/
theorem State.load_mod (s : State) (a : Nat) : s.load (a % 4096) = s.load a := by
  simp [State.load, memRead]

/-! ### Register blocks -/

theorem State.regBlock_length (s : State) (x : Nibble) : (s.regBlock x).length = x.toNat + 1 := by
  have := x.isLt
  simp [State.regBlock]
  omega

theorem State.regBlock_get (s : State) (x : Nibble) (k : Nat) (hk : k < (s.regBlock x).length) :
    (s.regBlock x)[k] = s.readV (BitVec.ofNat 4 k) := by
  have hx := x.isLt
  have hl := s.regBlock_length x
  have h16 : k % 16 = k := Nat.mod_eq_of_lt (by omega)
  simp [State.regBlock, State.readV, h16]

/-- Loading the first `k` registers changes registers only. -/
theorem State.loadBlock_eq (s : State) (a k : Nat) : s.loadBlock a k = { s with V := (s.loadBlock a k).V } := by
  induction k with
  | zero => rfl
  | succ k ih => rw [State.loadBlock, ih]; rfl

/-- The registers below `k` are loaded, each from its own address; the rest keep their values. -/
theorem State.readV_loadBlock (s : State) (a k : Nat) (hk : k ≤ 16) (r : Nibble) :
    (s.loadBlock a k).readV r = if r.toNat < k then s.load (a + r.toNat) else s.readV r := by
  induction k with
  | zero => simp [State.loadBlock]
  | succ k ih =>
    rw [State.loadBlock, State.readV_writeV]
    have hr : r = BitVec.ofNat 4 k ↔ r.toNat = k := by
      rw [← BitVec.toNat_inj]; simp [Nat.mod_eq_of_lt (show k < 16 by omega)]
    by_cases h : r.toNat = k
    · simp [hr.2 h, Nat.mod_eq_of_lt (show k < 16 by omega)]
    · rw [if_neg (fun e => h (hr.1 e)), ih (by omega)]
      by_cases h2 : r.toNat < k
      · simp [h2, show r.toNat < k + 1 by omega]
      · simp [h2, show ¬ r.toNat < k + 1 by omega]

/-! ### The key scan -/

theorem State.firstKey_eq_none (s : State) : s.firstKey = none ↔ ∀ k : Nibble, s.key k = false := by
  simp only [State.firstKey, Option.map_eq_none_iff, List.findIdx?_eq_none_iff, State.key]
  constructor
  · intro h k
    exact h _ (Vector.mem_toList_iff.2 (Vector.getElem_mem k.isLt))
  · intro h b hb
    obtain ⟨i, hi, rfl⟩ := Vector.getElem_of_mem (Vector.mem_toList_iff.1 hb)
    simpa [Nat.mod_eq_of_lt hi] using h (BitVec.ofNat 4 i)

/-- The key found is pressed, and no smaller one is (R213). -/
theorem State.firstKey_eq_some (s : State) (k : Nibble) (hk : s.key k = true)
    (hmin : ∀ j : Nibble, j.toNat < k.toNat → s.key j = false) : s.firstKey = some (k.setWidth 8) := by
  have hf : s.K.toList.findIdx? (fun b => b) = some k.toNat := by
    rw [List.findIdx?_eq_some_iff_getElem]
    have hkl : k.toNat < s.K.toList.length := by simpa using k.isLt
    refine ⟨hkl, by simpa [State.key] using hk, fun j hj => ?_⟩
    have hj16 : j < 16 := by have := k.isLt; omega
    simpa [State.key, Nat.mod_eq_of_lt hj16] using hmin (BitVec.ofNat 4 j) (by simpa [Nat.mod_eq_of_lt hj16] using hj)
  have hw : BitVec.ofNat 8 k.toNat = k.setWidth 8 := by
    apply BitVec.eq_of_toNat_eq; simp
  simp [State.firstKey, hf, hw]

/-! ### The sprite engine -/

/-- Column `col` of a sprite byte's mask is bit `7 - c` for `col = x0 + c`, and nothing outside these eight columns
(R195, R198). -/
theorem spriteMask_col (b : Byte) (x0 : Nat) (col : Fin 64) :
    (spriteMask b x0).getMsbD col.val = (decide (x0 ≤ col.val ∧ col.val < x0 + 8) && b.getLsbD (7 - (col.val - x0))) := by
  have hc := col.isLt
  simp only [spriteMask, BitVec.getMsbD_ushiftRight, BitVec.getMsbD_shiftLeft]
  by_cases h1 : col.val < x0
  · simp [h1]
  · by_cases h2 : col.val < x0 + 8
    · simp [h1, h2, BitVec.getMsbD, hc, show col.val - x0 + 56 < 64 by omega,
        show 63 - (col.val - x0 + 56) = 7 - (col.val - x0) by omega, show x0 ≤ col.val by omega]
      omega
    · simp [h1, h2, BitVec.getMsbD, show ¬ (col.val - x0 + 56 < 64) by omega]

/-- One sprite row leaves the other framebuffer rows alone and XORs its mask into its own (R197). -/
theorem drawRow_row (x0 y0 r : Nat) (b : Byte) (fb : Vector PixelRow 32 × Bool) (row : Fin 32) :
    (drawRow x0 y0 r b fb).1[row.val] =
      if (y0 + r) % 32 = row.val then fb.1[row.val] ^^^ spriteMask b x0 else fb.1[row.val] := by
  simp only [drawRow, Vector.getElem_set]
  split
  · next h => simp only [h]
  · rfl

/-- The collision bit gathers: set before, or some pixel this row toggles was on (R199). -/
theorem drawRow_collision (x0 y0 r : Nat) (b : Byte) (fb : Vector PixelRow 32 × Bool) :
    (drawRow x0 y0 r b fb).2 = true ↔
      fb.2 = true ∨ ((fb.1[(y0 + r) % 32]'(Nat.mod_lt _ (by decide))) &&& spriteMask b x0) ≠ 0#64 := by
  simp [drawRow]

/-- A row has a pixel on exactly when it is not all zero. -/
theorem pixelRow_ne_zero (p : PixelRow) : p ≠ 0#64 ↔ ∃ col : Fin 64, p.getMsbD col.val = true := by
  constructor
  · intro h
    by_contra hc
    refine h (BitVec.eq_of_getMsbD_eq fun i hi => ?_)
    simpa using (fun e => hc ⟨⟨i, hi⟩, e⟩)
  · rintro ⟨col, hc⟩ rfl
    simp at hc

end Sys2Proof.Machine
end

