-- ==== Sys2Proof/Laws/Claims.lean ====
section
/-! SUPPORT. The small lemmas of the terms claims use (`Sys2Proof/Safety.lean`): rows of the opcode map, a register set,
a register and the flag set, and the pixels a sprite draws. -/

namespace Sys2Proof.Safety

open Sys2Proof.Machine

/-! ### Rows of the opcode map (R97) -/

/-- A row that the family alone selects. -/
theorem encoded_F000 (f : Nibble) (build : Word → Instr)
    (h : ∀ iw, family iw = f → decodeWord iw = .instr (build iw)) : encoded 0xF000#16 (wordXyn f 0#4 0#4 0#4) build :=
  fun iw hm => h iw ((and_F000_eq_iff iw f).1 hm)

/-- A row that the family and the low nibble select. -/
theorem encoded_F00F (f n : Nibble) (build : Word → Instr)
    (h : ∀ iw, family iw = f → fieldN iw = n → decodeWord iw = .instr (build iw)) :
    encoded 0xF00F#16 (wordXyn f 0#4 0#4 n) build :=
  fun iw hm => h iw ((and_F00F_eq_iff iw f n).1 hm).1 ((and_F00F_eq_iff iw f n).1 hm).2

/-- A row that the family and the low byte select. -/
theorem encoded_F0FF (f : Nibble) (kk : Byte) (build : Word → Instr)
    (h : ∀ iw, family iw = f → fieldKk iw = kk → decodeWord iw = .instr (build iw)) :
    encoded 0xF0FF#16 (wordXyn f 0#4 (kk.extractLsb' 4 4) (kk.extractLsb' 0 4)) build := by
  intro iw hm
  obtain ⟨hf, hy, hn⟩ := (and_F0FF_eq_iff iw f _ _).1 hm
  exact h iw hf ((fieldKk_eq_iff iw kk).2 ⟨hy, hn⟩)

/-! ### Registers set -/

/-- One register written and `pc` advanced is what `setsOne` asks. -/
theorem setsOne_writeV (s : State) (x : Nibble) (v : Byte) : setsOne x v.toNat s (s.writeV x v).advance :=
  ⟨rfl, by simp, fun r hr => by simp [hr]⟩

/-- The flag and the result written and `pc` advanced is what `setsFlagged` asks. -/
theorem setsFlagged_writeFlagged (s : State) (x : Nibble) (r : Byte × Bool) :
    setsFlagged x r.1.toNat (r.2 = true) s (s.writeFlagged x r).advance := by
  refine ⟨rfl, by simp, fun hx => ⟨fun hf => ?_, fun hf => ?_⟩, fun q hq hq' => by simp [hq, hq']⟩
  · simp [Ne.symm hx, hf, flagByte]
  · simp [Ne.symm hx, hf, flagByte]

/-! ### The pixels of a sprite (R197, R198) -/

/-- One more sprite row: what was drawn, and what the new row's mask has in its framebuffer row. -/
theorem drawn_succ (s : State) (x0 y0 k : Nat) (row : Fin 32) (col : Fin 64) :
    drawn s x0 y0 (k + 1) row col ↔ drawn s x0 y0 k row col ∨
      ((y0 + k) % 32 = row.val ∧ (spriteMask (s.load (s.base + k)) x0).getMsbD col.val = true) := by
  rw [spriteMask_col]
  constructor
  · rintro ⟨r, c, hr, hc, hrow, hcol, hbit⟩
    by_cases h : r < k
    · exact .inl ⟨r, c, h, hc, hrow, hcol, hbit⟩
    · obtain rfl : r = k := by omega
      refine .inr ⟨hrow, ?_⟩
      have hc' : col.val - x0 = c := by omega
      rw [hc']
      simp only [State.base, hbit, Bool.and_true, decide_eq_true_eq]
      omega
  · rintro (⟨r, c, hr, hc, hrow, hcol, hbit⟩ | ⟨hrow, hm⟩)
    · exact ⟨r, c, by omega, hc, hrow, hcol, hbit⟩
    · simp only [Bool.and_eq_true, decide_eq_true_eq] at hm
      exact ⟨k, col.val - x0, by omega, by omega, hrow, by omega, hm.2⟩

/-- With at most 15 rows no two share a framebuffer row, so the next row's pixels are not drawn yet (R198). -/
theorem drawn_fresh (s : State) (x0 y0 k : Nat) (hk : k ≤ 15) (row : Fin 32) (col : Fin 64)
    (h : (y0 + k) % 32 = row.val) : ¬ drawn s x0 y0 k row col := by
  rintro ⟨r, c, hr, -, hrow, -⟩
  omega

end Sys2Proof.Safety
end

