-- ==== Sys2Proof/Laws/Dispatch.lean ====
section
/-! SUPPORT. The meaning each arm of `exec` calls, one rewrite per instruction. -/

namespace Sys2Proof.Machine

@[simp] theorem exec_cls (s : State) : exec .cls s = execCls s := rfl
@[simp] theorem exec_ret (s : State) : exec .ret s = execRet s := rfl
@[simp] theorem exec_jp (nnn : Addr12) (s : State) : exec (.jp nnn) s = execJp nnn s := rfl
@[simp] theorem exec_call (nnn : Addr12) (s : State) : exec (.call nnn) s = execCall nnn s := rfl
@[simp] theorem exec_seVxKk (x : Nibble) (kk : Byte) (s : State) : exec (.seVxKk x kk) s = execSeVxKk x kk s := rfl
@[simp] theorem exec_sneVxKk (x : Nibble) (kk : Byte) (s : State) : exec (.sneVxKk x kk) s = execSneVxKk x kk s := rfl
@[simp] theorem exec_seVxVy (x y : Nibble) (s : State) : exec (.seVxVy x y) s = execSeVxVy x y s := rfl
@[simp] theorem exec_ldVxKk (x : Nibble) (kk : Byte) (s : State) : exec (.ldVxKk x kk) s = execLdVxKk x kk s := rfl
@[simp] theorem exec_addVxKk (x : Nibble) (kk : Byte) (s : State) : exec (.addVxKk x kk) s = execAddVxKk x kk s := rfl
@[simp] theorem exec_ldVxVy (x y : Nibble) (s : State) : exec (.ldVxVy x y) s = execLdVxVy x y s := rfl
@[simp] theorem exec_orVxVy (x y : Nibble) (s : State) : exec (.orVxVy x y) s = execOrVxVy x y s := rfl
@[simp] theorem exec_andVxVy (x y : Nibble) (s : State) : exec (.andVxVy x y) s = execAndVxVy x y s := rfl
@[simp] theorem exec_xorVxVy (x y : Nibble) (s : State) : exec (.xorVxVy x y) s = execXorVxVy x y s := rfl
@[simp] theorem exec_addVxVy (x y : Nibble) (s : State) : exec (.addVxVy x y) s = execAddVxVy x y s := rfl
@[simp] theorem exec_subVxVy (x y : Nibble) (s : State) : exec (.subVxVy x y) s = execSubVxVy x y s := rfl
@[simp] theorem exec_shrVx (x y : Nibble) (s : State) : exec (.shrVx x y) s = execShrVx x y s := rfl
@[simp] theorem exec_subnVxVy (x y : Nibble) (s : State) : exec (.subnVxVy x y) s = execSubnVxVy x y s := rfl
@[simp] theorem exec_shlVx (x y : Nibble) (s : State) : exec (.shlVx x y) s = execShlVx x y s := rfl
@[simp] theorem exec_sneVxVy (x y : Nibble) (s : State) : exec (.sneVxVy x y) s = execSneVxVy x y s := rfl
@[simp] theorem exec_ldINnn (nnn : Addr12) (s : State) : exec (.ldINnn nnn) s = execLdINnn nnn s := rfl
@[simp] theorem exec_jpV0Nnn (nnn : Addr12) (s : State) : exec (.jpV0Nnn nnn) s = execJpV0Nnn nnn s := rfl
@[simp] theorem exec_rndVxKk (x : Nibble) (kk : Byte) (s : State) : exec (.rndVxKk x kk) s = execRndVxKk x kk s := rfl
@[simp] theorem exec_drwVxVyN (x y n : Nibble) (s : State) : exec (.drwVxVyN x y n) s = execDrwVxVyN x y n s := rfl
@[simp] theorem exec_skpVx (x : Nibble) (s : State) : exec (.skpVx x) s = execSkpVx x s := rfl
@[simp] theorem exec_sknpVx (x : Nibble) (s : State) : exec (.sknpVx x) s = execSknpVx x s := rfl
@[simp] theorem exec_ldVxDT (x : Nibble) (s : State) : exec (.ldVxDT x) s = execLdVxDT x s := rfl
@[simp] theorem exec_ldVxK (x : Nibble) (s : State) : exec (.ldVxK x) s = execLdVxK x s := rfl
@[simp] theorem exec_ldDTVx (x : Nibble) (s : State) : exec (.ldDTVx x) s = execLdDTVx x s := rfl
@[simp] theorem exec_ldSTVx (x : Nibble) (s : State) : exec (.ldSTVx x) s = execLdSTVx x s := rfl
@[simp] theorem exec_addIVx (x : Nibble) (s : State) : exec (.addIVx x) s = execAddIVx x s := rfl
@[simp] theorem exec_ldFVx (x : Nibble) (s : State) : exec (.ldFVx x) s = execLdFVx x s := rfl
@[simp] theorem exec_ldBVx (x : Nibble) (s : State) : exec (.ldBVx x) s = execLdBVx x s := rfl
@[simp] theorem exec_ldIndVx (x : Nibble) (s : State) : exec (.ldIndVx x) s = execLdIndVx x s := rfl
@[simp] theorem exec_ldVxInd (x : Nibble) (s : State) : exec (.ldVxInd x) s = execLdVxInd x s := rfl

end Sys2Proof.Machine
end

