-- ==== Sys2Proof/Laws/PerInstr.lean ====
section
/-! SUPPORT. The family EncodesInRow: an instruction's canonical word lies in that instruction's row of the opcode map,
and the row's fields, read from the word, are the instruction's operands (`30_encoding.md` R97, R98). -/

namespace Sys2Proof.Laws.EncodesInRow

/-- Row `k` of the opcode map holds the word `iw`, and reads it as `i`. -/
abbrev InRow (k : Fin 34) (iw : Word) (i : Instr) : Prop :=
  iw &&& opcodeMap[k].mask = opcodeMap[k].bits ∧ opcodeMap[k].build iw = i

/-- The canonical word of `i` lies in some row of the opcode map, which reads it as `i`. -/
def Statement (i : Instr) : Prop := ∃ k : Fin 34, InRow k (encode i) i

theorem cls : Statement .cls :=
  ⟨0, by decide, rfl⟩

theorem ret : Statement .ret :=
  ⟨1, by decide, rfl⟩

theorem jp (nnn : Addr12) : Statement (.jp nnn) :=
  ⟨2, (and_F000_eq_iff _ 0x1#4).2 (family_wordNnn ..), by
    show Instr.jp (fieldNnn (wordNnn 0x1#4 nnn)) = _
    simp only [fieldNnn_wordNnn]⟩

theorem call (nnn : Addr12) : Statement (.call nnn) :=
  ⟨3, (and_F000_eq_iff _ 0x2#4).2 (family_wordNnn ..), by
    show Instr.call (fieldNnn (wordNnn 0x2#4 nnn)) = _
    simp only [fieldNnn_wordNnn]⟩

theorem seVxKk (x : Nibble) (kk : Byte) : Statement (.seVxKk x kk) :=
  ⟨4, (and_F000_eq_iff _ 0x3#4).2 (family_wordXkk ..), by
    show Instr.seVxKk (fieldX (wordXkk 0x3#4 x kk)) (fieldKk (wordXkk 0x3#4 x kk)) = _
    simp only [fieldX_wordXkk, fieldKk_wordXkk]⟩

theorem sneVxKk (x : Nibble) (kk : Byte) : Statement (.sneVxKk x kk) :=
  ⟨5, (and_F000_eq_iff _ 0x4#4).2 (family_wordXkk ..), by
    show Instr.sneVxKk (fieldX (wordXkk 0x4#4 x kk)) (fieldKk (wordXkk 0x4#4 x kk)) = _
    simp only [fieldX_wordXkk, fieldKk_wordXkk]⟩

theorem seVxVy (x y : Nibble) : Statement (.seVxVy x y) :=
  ⟨6, (and_F000_eq_iff _ 0x5#4).2 (family_wordXyn ..), by
    show Instr.seVxVy (fieldX (wordXyn 0x5#4 x y 0x0#4)) (fieldY (wordXyn 0x5#4 x y 0x0#4)) = _
    simp only [fieldX_wordXyn, fieldY_wordXyn]⟩

theorem ldVxKk (x : Nibble) (kk : Byte) : Statement (.ldVxKk x kk) :=
  ⟨7, (and_F000_eq_iff _ 0x6#4).2 (family_wordXkk ..), by
    show Instr.ldVxKk (fieldX (wordXkk 0x6#4 x kk)) (fieldKk (wordXkk 0x6#4 x kk)) = _
    simp only [fieldX_wordXkk, fieldKk_wordXkk]⟩

theorem addVxKk (x : Nibble) (kk : Byte) : Statement (.addVxKk x kk) :=
  ⟨8, (and_F000_eq_iff _ 0x7#4).2 (family_wordXkk ..), by
    show Instr.addVxKk (fieldX (wordXkk 0x7#4 x kk)) (fieldKk (wordXkk 0x7#4 x kk)) = _
    simp only [fieldX_wordXkk, fieldKk_wordXkk]⟩

theorem ldVxVy (x y : Nibble) : Statement (.ldVxVy x y) :=
  ⟨9, (and_F00F_eq_iff _ 0x8#4 0x0#4).2 ⟨family_wordXyn .., (fieldN_wordXyn ..)⟩, by
    show Instr.ldVxVy (fieldX (wordXyn 0x8#4 x y 0x0#4)) (fieldY (wordXyn 0x8#4 x y 0x0#4)) = _
    simp only [fieldX_wordXyn, fieldY_wordXyn]⟩

theorem orVxVy (x y : Nibble) : Statement (.orVxVy x y) :=
  ⟨10, (and_F00F_eq_iff _ 0x8#4 0x1#4).2 ⟨family_wordXyn .., (fieldN_wordXyn ..)⟩, by
    show Instr.orVxVy (fieldX (wordXyn 0x8#4 x y 0x1#4)) (fieldY (wordXyn 0x8#4 x y 0x1#4)) = _
    simp only [fieldX_wordXyn, fieldY_wordXyn]⟩

theorem andVxVy (x y : Nibble) : Statement (.andVxVy x y) :=
  ⟨11, (and_F00F_eq_iff _ 0x8#4 0x2#4).2 ⟨family_wordXyn .., (fieldN_wordXyn ..)⟩, by
    show Instr.andVxVy (fieldX (wordXyn 0x8#4 x y 0x2#4)) (fieldY (wordXyn 0x8#4 x y 0x2#4)) = _
    simp only [fieldX_wordXyn, fieldY_wordXyn]⟩

theorem xorVxVy (x y : Nibble) : Statement (.xorVxVy x y) :=
  ⟨12, (and_F00F_eq_iff _ 0x8#4 0x3#4).2 ⟨family_wordXyn .., (fieldN_wordXyn ..)⟩, by
    show Instr.xorVxVy (fieldX (wordXyn 0x8#4 x y 0x3#4)) (fieldY (wordXyn 0x8#4 x y 0x3#4)) = _
    simp only [fieldX_wordXyn, fieldY_wordXyn]⟩

theorem addVxVy (x y : Nibble) : Statement (.addVxVy x y) :=
  ⟨13, (and_F00F_eq_iff _ 0x8#4 0x4#4).2 ⟨family_wordXyn .., (fieldN_wordXyn ..)⟩, by
    show Instr.addVxVy (fieldX (wordXyn 0x8#4 x y 0x4#4)) (fieldY (wordXyn 0x8#4 x y 0x4#4)) = _
    simp only [fieldX_wordXyn, fieldY_wordXyn]⟩

theorem subVxVy (x y : Nibble) : Statement (.subVxVy x y) :=
  ⟨14, (and_F00F_eq_iff _ 0x8#4 0x5#4).2 ⟨family_wordXyn .., (fieldN_wordXyn ..)⟩, by
    show Instr.subVxVy (fieldX (wordXyn 0x8#4 x y 0x5#4)) (fieldY (wordXyn 0x8#4 x y 0x5#4)) = _
    simp only [fieldX_wordXyn, fieldY_wordXyn]⟩

theorem shrVx (x y : Nibble) : Statement (.shrVx x y) :=
  ⟨15, (and_F00F_eq_iff _ 0x8#4 0x6#4).2 ⟨family_wordXyn .., (fieldN_wordXyn ..)⟩, by
    show Instr.shrVx (fieldX (wordXyn 0x8#4 x y 0x6#4)) (fieldY (wordXyn 0x8#4 x y 0x6#4)) = _
    simp only [fieldX_wordXyn, fieldY_wordXyn]⟩

theorem subnVxVy (x y : Nibble) : Statement (.subnVxVy x y) :=
  ⟨16, (and_F00F_eq_iff _ 0x8#4 0x7#4).2 ⟨family_wordXyn .., (fieldN_wordXyn ..)⟩, by
    show Instr.subnVxVy (fieldX (wordXyn 0x8#4 x y 0x7#4)) (fieldY (wordXyn 0x8#4 x y 0x7#4)) = _
    simp only [fieldX_wordXyn, fieldY_wordXyn]⟩

theorem shlVx (x y : Nibble) : Statement (.shlVx x y) :=
  ⟨17, (and_F00F_eq_iff _ 0x8#4 0xE#4).2 ⟨family_wordXyn .., (fieldN_wordXyn ..)⟩, by
    show Instr.shlVx (fieldX (wordXyn 0x8#4 x y 0xE#4)) (fieldY (wordXyn 0x8#4 x y 0xE#4)) = _
    simp only [fieldX_wordXyn, fieldY_wordXyn]⟩

theorem sneVxVy (x y : Nibble) : Statement (.sneVxVy x y) :=
  ⟨18, (and_F000_eq_iff _ 0x9#4).2 (family_wordXyn ..), by
    show Instr.sneVxVy (fieldX (wordXyn 0x9#4 x y 0x0#4)) (fieldY (wordXyn 0x9#4 x y 0x0#4)) = _
    simp only [fieldX_wordXyn, fieldY_wordXyn]⟩

theorem ldINnn (nnn : Addr12) : Statement (.ldINnn nnn) :=
  ⟨19, (and_F000_eq_iff _ 0xA#4).2 (family_wordNnn ..), by
    show Instr.ldINnn (fieldNnn (wordNnn 0xA#4 nnn)) = _
    simp only [fieldNnn_wordNnn]⟩

theorem jpV0Nnn (nnn : Addr12) : Statement (.jpV0Nnn nnn) :=
  ⟨20, (and_F000_eq_iff _ 0xB#4).2 (family_wordNnn ..), by
    show Instr.jpV0Nnn (fieldNnn (wordNnn 0xB#4 nnn)) = _
    simp only [fieldNnn_wordNnn]⟩

theorem rndVxKk (x : Nibble) (kk : Byte) : Statement (.rndVxKk x kk) :=
  ⟨21, (and_F000_eq_iff _ 0xC#4).2 (family_wordXkk ..), by
    show Instr.rndVxKk (fieldX (wordXkk 0xC#4 x kk)) (fieldKk (wordXkk 0xC#4 x kk)) = _
    simp only [fieldX_wordXkk, fieldKk_wordXkk]⟩

theorem drwVxVyN (x y n : Nibble) : Statement (.drwVxVyN x y n) :=
  ⟨22, (and_F000_eq_iff _ 0xD#4).2 (family_wordXyn ..), by
    show Instr.drwVxVyN (fieldX (wordXyn 0xD#4 x y n)) (fieldY (wordXyn 0xD#4 x y n)) (fieldN (wordXyn 0xD#4 x y n)) = _
    simp only [fieldX_wordXyn, fieldY_wordXyn, fieldN_wordXyn]⟩

theorem skpVx (x : Nibble) : Statement (.skpVx x) :=
  ⟨23, (and_F00F_eq_iff _ 0xE#4 0xE#4).2 ⟨family_wordXkk .., (fieldN_wordXkk ..).trans (by decide)⟩, by
    show Instr.skpVx (fieldX (wordXkk 0xE#4 x 0x9E#8)) = _
    simp only [fieldX_wordXkk]⟩

theorem sknpVx (x : Nibble) : Statement (.sknpVx x) :=
  ⟨24, (and_F00F_eq_iff _ 0xE#4 0x1#4).2 ⟨family_wordXkk .., (fieldN_wordXkk ..).trans (by decide)⟩, by
    show Instr.sknpVx (fieldX (wordXkk 0xE#4 x 0xA1#8)) = _
    simp only [fieldX_wordXkk]⟩

theorem ldVxDT (x : Nibble) : Statement (.ldVxDT x) :=
  ⟨25, (and_F0FF_eq_iff _ 0xF#4 0x0#4 0x7#4).2 ⟨family_wordXkk .., (fieldY_wordXkk ..).trans (by decide), (fieldN_wordXkk ..).trans (by decide)⟩, by
    show Instr.ldVxDT (fieldX (wordXkk 0xF#4 x 0x07#8)) = _
    simp only [fieldX_wordXkk]⟩

theorem ldVxK (x : Nibble) : Statement (.ldVxK x) :=
  ⟨26, (and_F0FF_eq_iff _ 0xF#4 0x0#4 0xA#4).2 ⟨family_wordXkk .., (fieldY_wordXkk ..).trans (by decide), (fieldN_wordXkk ..).trans (by decide)⟩, by
    show Instr.ldVxK (fieldX (wordXkk 0xF#4 x 0x0A#8)) = _
    simp only [fieldX_wordXkk]⟩

theorem ldDTVx (x : Nibble) : Statement (.ldDTVx x) :=
  ⟨27, (and_F0FF_eq_iff _ 0xF#4 0x1#4 0x5#4).2 ⟨family_wordXkk .., (fieldY_wordXkk ..).trans (by decide), (fieldN_wordXkk ..).trans (by decide)⟩, by
    show Instr.ldDTVx (fieldX (wordXkk 0xF#4 x 0x15#8)) = _
    simp only [fieldX_wordXkk]⟩

theorem ldSTVx (x : Nibble) : Statement (.ldSTVx x) :=
  ⟨28, (and_F0FF_eq_iff _ 0xF#4 0x1#4 0x8#4).2 ⟨family_wordXkk .., (fieldY_wordXkk ..).trans (by decide), (fieldN_wordXkk ..).trans (by decide)⟩, by
    show Instr.ldSTVx (fieldX (wordXkk 0xF#4 x 0x18#8)) = _
    simp only [fieldX_wordXkk]⟩

theorem addIVx (x : Nibble) : Statement (.addIVx x) :=
  ⟨29, (and_F0FF_eq_iff _ 0xF#4 0x1#4 0xE#4).2 ⟨family_wordXkk .., (fieldY_wordXkk ..).trans (by decide), (fieldN_wordXkk ..).trans (by decide)⟩, by
    show Instr.addIVx (fieldX (wordXkk 0xF#4 x 0x1E#8)) = _
    simp only [fieldX_wordXkk]⟩

theorem ldFVx (x : Nibble) : Statement (.ldFVx x) :=
  ⟨30, (and_F0FF_eq_iff _ 0xF#4 0x2#4 0x9#4).2 ⟨family_wordXkk .., (fieldY_wordXkk ..).trans (by decide), (fieldN_wordXkk ..).trans (by decide)⟩, by
    show Instr.ldFVx (fieldX (wordXkk 0xF#4 x 0x29#8)) = _
    simp only [fieldX_wordXkk]⟩

theorem ldBVx (x : Nibble) : Statement (.ldBVx x) :=
  ⟨31, (and_F0FF_eq_iff _ 0xF#4 0x3#4 0x3#4).2 ⟨family_wordXkk .., (fieldY_wordXkk ..).trans (by decide), (fieldN_wordXkk ..).trans (by decide)⟩, by
    show Instr.ldBVx (fieldX (wordXkk 0xF#4 x 0x33#8)) = _
    simp only [fieldX_wordXkk]⟩

theorem ldIndVx (x : Nibble) : Statement (.ldIndVx x) :=
  ⟨32, (and_F0FF_eq_iff _ 0xF#4 0x5#4 0x5#4).2 ⟨family_wordXkk .., (fieldY_wordXkk ..).trans (by decide), (fieldN_wordXkk ..).trans (by decide)⟩, by
    show Instr.ldIndVx (fieldX (wordXkk 0xF#4 x 0x55#8)) = _
    simp only [fieldX_wordXkk]⟩

theorem ldVxInd (x : Nibble) : Statement (.ldVxInd x) :=
  ⟨33, (and_F0FF_eq_iff _ 0xF#4 0x6#4 0x5#4).2 ⟨family_wordXkk .., (fieldY_wordXkk ..).trans (by decide), (fieldN_wordXkk ..).trans (by decide)⟩, by
    show Instr.ldVxInd (fieldX (wordXkk 0xF#4 x 0x65#8)) = _
    simp only [fieldX_wordXkk]⟩

end Sys2Proof.Laws.EncodesInRow
end

