-- ==== Sys2Proof/Laws/Step.lean ====
section
/-! SUPPORT. What a step can do, said once: its four cases, and the ways an instruction's meaning can end
(`30_encoding.md` R90; `60_exceptions.md` R231 to R233, R237). -/

namespace Sys2Proof.Machine

/-- Nothing can be fetched: the fault, whatever memory holds. -/
theorem step_of_ge (s : State) (h : 0xFFF ≤ s.pc.toNat) : step s = .fault .addressOutOfRange := by
  unfold step
  rw [s.fetch_eq_none.2 h]
  rfl

/-- A fetched word that decodes to an instruction runs that instruction's meaning. -/
theorem step_of_instr (s : State) {iw : Word} {i : Instr} (hf : s.fetch = some iw) (hd : decodeWord iw = .instr i) :
    step s = exec i s := by
  unfold step
  rw [hf]
  simp only [hd]

/-- An undefined word is a no-op. -/
theorem step_of_undefined (s : State) {iw : Word} (hf : s.fetch = some iw) (hd : decodeWord iw = .undefined iw) :
    step s = .next s.advance := by
  unfold step
  rw [hf]
  simp only [hd]
  rfl

/-- Every step is one of three: the fetch fault, an instruction's meaning, or the no-op of an undefined word. -/
theorem step_cases (s : State) :
    (0xFFF ≤ s.pc.toNat ∧ step s = .fault .addressOutOfRange) ∨
    (∃ iw i, s.pc.toNat < 0xFFF ∧ s.fetch = some iw ∧ decodeWord iw = .instr i ∧ step s = exec i s) ∨
    (∃ iw w, s.pc.toNat < 0xFFF ∧ s.fetch = some iw ∧ decodeWord iw = .undefined w ∧ step s = .next s.advance) := by
  by_cases h : 0xFFF ≤ s.pc.toNat
  · exact .inl ⟨h, step_of_ge s h⟩
  · have hf := s.fetch_of_lt (by omega)
    right
    cases hd : decodeWord (wordOfBytes (s.load s.pc.toNat) (s.load (s.pc.toNat + 1))) with
    | instr i => exact .inl ⟨_, i, by omega, hf, hd, step_of_instr s hf hd⟩
    | undefined w =>
      refine .inr ⟨_, w, by omega, hf, hd, ?_⟩
      unfold step
      rw [hf]
      simp only [hd]
      rfl

/-- A skip changes `pc` only. -/
theorem State.skipIf_eq (s : State) (c : Bool) :
    s.skipIf c = { s with pc := if c then s.pc + 4#16 else s.pc + 2#16 } := by cases c <;> rfl

/-- CALL with room on the stack. -/
theorem execCall_of_lt (s : State) (nnn : Addr12) (h : s.sp.val < 16) :
    execCall nnn s = .next { s with S := s.S.set s.sp.val (s.pc + 2#16) h, sp := ⟨s.sp.val + 1, Nat.succ_lt_succ h⟩,
                                    pc := zextNnn nnn } := by
  simp only [execCall, State.push_of_lt _ _ h]
  rfl

/-- CALL with a full stack. -/
theorem execCall_of_full (s : State) (nnn : Addr12) (h : s.sp.val = 16) : execCall nnn s = .fault .stackOverflow := by
  simp only [execCall, State.push_of_full s _ h]
  rfl

/-- RET with something on the stack. -/
theorem execRet_of_pos (s : State) (h : s.sp.val ≠ 0) :
    execRet s = .next { s with sp := ⟨s.sp.val - 1, by have := s.sp.isLt; omega⟩,
                               pc := s.S[s.sp.val - 1]'(by have := s.sp.isLt; omega) } := by
  simp only [execRet, State.pop_of_pos s h]
  rfl

/-- RET with an empty stack. -/
theorem execRet_of_empty (s : State) (h : s.sp.val = 0) : execRet s = .fault .stackUnderflow := by
  simp only [execRet, State.pop_of_empty s h]
  rfl

/-- An instruction completes, or it is RET with an empty stack, or CALL with a full one. -/
theorem exec_outcome (i : Instr) (s : State) :
    (∃ t, exec i s = .next t) ∨ (i = .ret ∧ s.sp.val = 0 ∧ exec i s = .fault .stackUnderflow) ∨
    (∃ nnn, i = .call nnn ∧ s.sp.val = 16 ∧ exec i s = .fault .stackOverflow) := by
  cases i
  case ret =>
    by_cases h : s.sp.val = 0
    · exact .inr (.inl ⟨rfl, h, execRet_of_empty s h⟩)
    · exact .inl ⟨_, execRet_of_pos s h⟩
  case call nnn =>
    by_cases h : s.sp.val < 16
    · exact .inl ⟨_, execCall_of_lt s nnn h⟩
    · have := s.sp.isLt
      exact .inr (.inr ⟨nnn, rfl, by omega, execCall_of_full s nnn (by omega)⟩)
  case ldVxK x =>
    left
    simp only [exec_ldVxK, execLdVxK]
    split <;> exact ⟨_, rfl⟩
  all_goals exact .inl ⟨_, rfl⟩

end Sys2Proof.Machine
end

