-- ==== Sys2Proof/Tests/Slice0.lean ====
section
/-! SUPPORT. Tests of one step each, with expected results from the worked examples and corner cases of the spec's rules;
the decoding of every constructor from a word written out bit by bit; the smoke test of well-formedness; and for every
obligation with hypotheses a state and operands that meet them, each clause at the edges of its range. -/

namespace Sys2Proof.Tests

open Sys2Proof.Machine Sys2Proof.Safety

/-! ### Small states -/

/-- Registers set one after another. -/
def regs (l : List (Nibble × Byte)) (s : State) : State := l.foldl (fun s p => s.writeV p.1 p.2) s

/-- Bytes stored from an address upward. -/
def bytes (a : Nat) (l : List Byte) (s : State) : State := s.storeList a l

/-- The reset state with an instruction word at 0x200. -/
def word (w : Nat) (s : State := State.reset) : State := s.withFetchWord 16 w

/-- A stack of `n` entries, all `v`. -/
def stack (n : Fin 17) (v : Word) (s : State) : State := { s with sp := n, S := Vector.replicate 16 v }

/-- One key down. -/
def press (k : Fin 16) (s : State) : State := { s with K := s.K.set k.val true k.isLt }

/-- A property of the state after one step; false where the step does not complete. -/
def after (s : State) (p : State → Bool) : Bool :=
  match step s with
  | .next t => p t
  | .fault _ => false
  | .refused _ => false

/-- One step ends in this fault. -/
def faults (s : State) (f : Fault) : Bool :=
  match step s with
  | .next _ => false
  | .fault g => f == g
  | .refused _ => false

/-! ### Well-formedness: operand types are exactly as wide as their fields, so the one check is the assembler's -/

theorem test_wf_shr_with_y_refused : (Instr.shrVx 0x1 0x2).assembled = false := by decide
theorem test_wf_shl_with_y_refused : (Instr.shlVx 0x1 0x2).assembled = false := by decide
theorem test_wf_shr_assembled : (Instr.shrVx 0x1 0x0).assembled = true := by decide
theorem test_wf_machine_takes_any_y : (Instr.shrVx 0x1 0x2).wellFormed = true := by decide

/-! ### Decoding, from the patterns of R97 written out in binary: x = 0xA, y = 0x5, n = 0x3, kk = 0x53, nnn = 0xA53 -/

theorem test_decode_cls : decodeBytes 0b00000000 0b11100000 = .instr .cls := by decide
theorem test_decode_ret : decodeBytes 0b00000000 0b11101110 = .instr .ret := by decide
theorem test_decode_jp : decodeBytes 0b00011010 0b01010011 = .instr (.jp 0xA53) := by decide
theorem test_decode_call : decodeBytes 0b00101010 0b01010011 = .instr (.call 0xA53) := by decide
theorem test_decode_seVxKk : decodeBytes 0b00111010 0b01010011 = .instr (.seVxKk 0xA 0x53) := by decide
theorem test_decode_sneVxKk : decodeBytes 0b01001010 0b01010011 = .instr (.sneVxKk 0xA 0x53) := by decide
theorem test_decode_seVxVy : decodeBytes 0b01011010 0b01010000 = .instr (.seVxVy 0xA 0x5) := by decide
theorem test_decode_ldVxKk : decodeBytes 0b01101010 0b01010011 = .instr (.ldVxKk 0xA 0x53) := by decide
theorem test_decode_addVxKk : decodeBytes 0b01111010 0b01010011 = .instr (.addVxKk 0xA 0x53) := by decide
theorem test_decode_ldVxVy : decodeBytes 0b10001010 0b01010000 = .instr (.ldVxVy 0xA 0x5) := by decide
theorem test_decode_orVxVy : decodeBytes 0b10001010 0b01010001 = .instr (.orVxVy 0xA 0x5) := by decide
theorem test_decode_andVxVy : decodeBytes 0b10001010 0b01010010 = .instr (.andVxVy 0xA 0x5) := by decide
theorem test_decode_xorVxVy : decodeBytes 0b10001010 0b01010011 = .instr (.xorVxVy 0xA 0x5) := by decide
theorem test_decode_addVxVy : decodeBytes 0b10001010 0b01010100 = .instr (.addVxVy 0xA 0x5) := by decide
theorem test_decode_subVxVy : decodeBytes 0b10001010 0b01010101 = .instr (.subVxVy 0xA 0x5) := by decide
theorem test_decode_shrVx : decodeBytes 0b10001010 0b01010110 = .instr (.shrVx 0xA 0x5) := by decide
theorem test_decode_subnVxVy : decodeBytes 0b10001010 0b01010111 = .instr (.subnVxVy 0xA 0x5) := by decide
theorem test_decode_shlVx : decodeBytes 0b10001010 0b01011110 = .instr (.shlVx 0xA 0x5) := by decide
theorem test_decode_sneVxVy : decodeBytes 0b10011010 0b01010000 = .instr (.sneVxVy 0xA 0x5) := by decide
theorem test_decode_ldINnn : decodeBytes 0b10101010 0b01010011 = .instr (.ldINnn 0xA53) := by decide
theorem test_decode_jpV0Nnn : decodeBytes 0b10111010 0b01010011 = .instr (.jpV0Nnn 0xA53) := by decide
theorem test_decode_rndVxKk : decodeBytes 0b11001010 0b01010011 = .instr (.rndVxKk 0xA 0x53) := by decide
theorem test_decode_drwVxVyN : decodeBytes 0b11011010 0b01010011 = .instr (.drwVxVyN 0xA 0x5 0x3) := by decide
theorem test_decode_skpVx : decodeBytes 0b11101010 0b10011110 = .instr (.skpVx 0xA) := by decide
theorem test_decode_sknpVx : decodeBytes 0b11101010 0b10100001 = .instr (.sknpVx 0xA) := by decide
theorem test_decode_ldVxDT : decodeBytes 0b11111010 0b00000111 = .instr (.ldVxDT 0xA) := by decide
theorem test_decode_ldVxK : decodeBytes 0b11111010 0b00001010 = .instr (.ldVxK 0xA) := by decide
theorem test_decode_ldDTVx : decodeBytes 0b11111010 0b00010101 = .instr (.ldDTVx 0xA) := by decide
theorem test_decode_ldSTVx : decodeBytes 0b11111010 0b00011000 = .instr (.ldSTVx 0xA) := by decide
theorem test_decode_addIVx : decodeBytes 0b11111010 0b00011110 = .instr (.addIVx 0xA) := by decide
theorem test_decode_ldFVx : decodeBytes 0b11111010 0b00101001 = .instr (.ldFVx 0xA) := by decide
theorem test_decode_ldBVx : decodeBytes 0b11111010 0b00110011 = .instr (.ldBVx 0xA) := by decide
theorem test_decode_ldIndVx : decodeBytes 0b11111010 0b01010101 = .instr (.ldIndVx 0xA) := by decide
theorem test_decode_ldVxInd : decodeBytes 0b11111010 0b01100101 = .instr (.ldVxInd 0xA) := by decide

/-- Undefined words of the four second-level families (R101), and an alias of CLS and of RET (R98). -/
theorem test_decode_undefined : decodeWord 0x8018 = .undefined 0x8018 ∧ decodeWord 0x0001 = .undefined 0x0001 ∧
    decodeWord 0xE09F = .undefined 0xE09F ∧ decodeWord 0xF066 = .undefined 0xF066 := by decide
theorem test_decode_alias : decodeWord 0x0000 = .instr .cls ∧ decodeWord 0x0FFE = .instr .ret := by decide
theorem test_table_word : decodeTableWord 16 0x8124 = some (.addVxVy 0x1 0x2) ∧ decodeTableWord 16 0x8018 = none := by
  decide

/-! ### One step of each instruction (the examples and corner cases of the rules named) -/

/-- R196. -/
theorem test_cls : after (word 0x00E0 { State.reset with FB := Vector.replicate 32 0xFFFFFFFFFFFFFFFF })
    (fun t => t.FB == Vector.replicate 32 0#64 && t.pc == 0x0202) = true := by decide
/-- R120's example, and its underflow. -/
theorem test_ret : after (word 0x00EE { stack 1 0x0202 State.reset with pc := 0x0300 })
    (fun t => t.pc == 0x0202 && t.sp == 0 && t.S[0] == 0x0202) = true := by decide
theorem test_ret_underflow : faults (word 0x00EE) .stackUnderflow = true := by decide
/-- R121. -/
theorem test_jp : after (word 0x1234) (fun t => t.pc == 0x0234) = true := by decide
/-- R122's example, and its overflow. -/
theorem test_call : after (word 0x2300)
    (fun t => t.S[0] == 0x0202 && t.sp == 1 && t.pc == 0x0300) = true := by decide
theorem test_call_overflow : faults (word 0x2300 (stack 16 0x0202 State.reset)) .stackOverflow = true := by decide
/-- R123's example, both ways. -/
theorem test_seVxKk : after (word 0x332A (regs [(3, 0x2A)] State.reset)) (fun t => t.pc == 0x0204) = true := by decide
theorem test_seVxKk_not : after (word 0x332A (regs [(3, 0x2B)] State.reset)) (fun t => t.pc == 0x0202) = true := by decide
/-- R124's example, both ways. -/
theorem test_sneVxKk : after (word 0x432A (regs [(3, 0x2A)] State.reset)) (fun t => t.pc == 0x0202) = true := by decide
theorem test_sneVxKk_not : after (word 0x432A) (fun t => t.pc == 0x0204) = true := by decide
/-- R125's example, through an alias word. -/
theorem test_seVxVy : after (word 0x512F (regs [(1, 7), (2, 7)] State.reset)) (fun t => t.pc == 0x0204) = true := by decide
theorem test_seVxVy_not : after (word 0x5120 (regs [(1, 7), (2, 8)] State.reset)) (fun t => t.pc == 0x0202) = true := by
  decide
/-- R126's example; `x = y` never skips. -/
theorem test_sneVxVy : after (word 0x9120 (regs [(1, 7), (2, 8)] State.reset)) (fun t => t.pc == 0x0204) = true := by decide
theorem test_sneVxVy_same : after (word 0x9110 (regs [(1, 7)] State.reset)) (fun t => t.pc == 0x0202) = true := by decide
/-- R127's two examples: the sum is not reduced to 12 bits. -/
theorem test_jpV0Nnn : after (word 0xB300 (regs [(0, 0x10), (3, 0x77)] State.reset)) (fun t => t.pc == 0x0310) = true := by
  decide
theorem test_jpV0Nnn_top : after (word 0xBFFF (regs [(0, 0xFF)] State.reset)) (fun t => t.pc == 0x10FE) = true := by decide
/-- R140, R141: the examples; 7xkk sets no flag. -/
theorem test_ldVxKk : after (word 0x6A7F) (fun t => t.readV 0xA == 0x7F && t.pc == 0x0202) = true := by decide
theorem test_addVxKk : after (word 0x7101 (regs [(1, 0xFF), (0xF, 0x55)] State.reset))
    (fun t => t.readV 1 == 0x00 && t.readV 0xF == 0x55) = true := by decide
/-- R143 to R146: the examples. -/
theorem test_ldVxVy : after (word 0x8120 (regs [(2, 0x33)] State.reset))
    (fun t => t.readV 1 == 0x33 && t.readV 2 == 0x33) = true := by decide
theorem test_orVxVy : after (word 0x8121 (regs [(1, 0x0F), (2, 0xF0)] State.reset)) (fun t => t.readV 1 == 0xFF) = true := by
  decide
theorem test_andVxVy : after (word 0x8122 (regs [(1, 0x3C), (2, 0x0F)] State.reset)) (fun t => t.readV 1 == 0x0C) = true := by
  decide
theorem test_xorVxVy : after (word 0x8123 (regs [(1, 0xFF), (2, 0x0F), (0xF, 0x55)] State.reset))
    (fun t => t.readV 1 == 0xF0 && t.readV 0xF == 0x55) = true := by decide
/-- R147: the example; and `x = 0xF`, where the result wins (R142). -/
theorem test_addVxVy : after (word 0x8124 (regs [(1, 0xC8), (2, 0x64)] State.reset))
    (fun t => t.readV 1 == 0x2C && t.readV 0xF == 0x01) = true := by decide
theorem test_addVxVy_into_VF : after (word 0x8F24 (regs [(0xF, 0xC8), (2, 0x64)] State.reset))
    (fun t => t.readV 0xF == 0x2C) = true := by decide
/-- R148: the example; and `y = 0xF`, read before the flag is written. -/
theorem test_subVxVy : after (word 0x8125 (regs [(1, 5), (2, 7), (0xF, 0x55)] State.reset))
    (fun t => t.readV 1 == 0xFE && t.readV 0xF == 0x00) = true := by decide
theorem test_subVxVy_VF_operand : after (word 0x81F5 (regs [(1, 7), (0xF, 7)] State.reset))
    (fun t => t.readV 1 == 0x00 && t.readV 0xF == 0x01) = true := by decide
/-- R149: the example, with a `y` field that plays no part; and `x = 0xF`. -/
theorem test_shrVx : after (word 0x8126 (regs [(1, 0x05), (2, 0xFF)] State.reset))
    (fun t => t.readV 1 == 0x02 && t.readV 0xF == 0x01 && t.readV 2 == 0xFF) = true := by decide
theorem test_shrVx_into_VF : after (word 0x8F06 (regs [(0xF, 0x81)] State.reset)) (fun t => t.readV 0xF == 0x40) = true := by
  decide
/-- R150: the examples. -/
theorem test_subnVxVy : after (word 0x8127 (regs [(1, 5), (2, 7)] State.reset))
    (fun t => t.readV 1 == 0x02 && t.readV 0xF == 0x01) = true := by decide
theorem test_subnVxVy_borrow : after (word 0x8127 (regs [(1, 7), (2, 5)] State.reset))
    (fun t => t.readV 1 == 0xFE && t.readV 0xF == 0x00) = true := by decide
/-- R151: the example; and R156's line without a bit out. -/
theorem test_shlVx : after (word 0x810E (regs [(1, 0x81)] State.reset))
    (fun t => t.readV 1 == 0x02 && t.readV 0xF == 0x01) = true := by decide
theorem test_shlVx_no_bit : after (word 0x810E (regs [(1, 0x7F), (0xF, 0x55)] State.reset))
    (fun t => t.readV 1 == 0xFE && t.readV 0xF == 0x00) = true := by decide
/-- R170 to R172: the examples; `Fx29` takes all of `Vx`. -/
theorem test_ldINnn : after (word 0xA2F0) (fun t => t.I == 0x02F0) = true := by decide
theorem test_addIVx : after (word 0xF21E { regs [(2, 0x05)] State.reset with I := 0x0FFE })
    (fun t => t.I == 0x1003 && t.readV 0xF == 0x00) = true := by decide
theorem test_ldFVx : after (word 0xF329 (regs [(3, 0x0A)] State.reset)) (fun t => t.I == 0x0082) = true := by decide
theorem test_ldFVx_unmasked : after (word 0xF329 (regs [(3, 0x10)] State.reset)) (fun t => t.I == 0x00A0) = true := by decide
/-- R173: the example; and the wrap of R176 past 0xFFF. -/
theorem test_ldBVx : after (word 0xF433 { regs [(4, 156)] State.reset with I := 0x0300 })
    (fun t => t.load 0x300 == 1 && t.load 0x301 == 5 && t.load 0x302 == 6 && t.I == 0x0300) = true := by decide
theorem test_ldBVx_wraps : after (word 0xF433 { regs [(4, 255)] State.reset with I := 0xFFFF })
    (fun t => t.load 0xFFF == 2 && t.load 0x000 == 5 && t.load 0x001 == 5) = true := by decide
/-- R174: the example. -/
theorem test_ldIndVx : after (word 0xF155 { regs [(0, 0xAA), (1, 0xBB), (2, 0xCC)] State.reset with I := 0x0400 })
    (fun t => t.load 0x400 == 0xAA && t.load 0x401 == 0xBB && t.load 0x402 == 0x00 && t.I == 0x0400) = true := by decide
/-- R175: the example; and all 16 registers, with `VF` from `I + 15`. -/
theorem test_ldVxInd : after (word 0xF265 { bytes 0x300 [1, 5, 6, 9] (regs [(3, 0x33)] State.reset) with I := 0x0300 })
    (fun t => t.readV 0 == 1 && t.readV 1 == 5 && t.readV 2 == 6 && t.readV 3 == 0x33) = true := by decide
theorem test_ldVxInd_all : after (word 0xFF65 { bytes 0x000 [0x77] State.reset with I := 0x0FF1 })
    (fun t => t.readV 0xF == 0x77 && t.I == 0x0FF1) = true := by decide
/-- R190: with `kk = 0` the result is 0 whatever is drawn, and a value is still taken. -/
theorem test_rndVxKk : after (word 0xC300) (fun t => t.draws == 1 && t.pc == 0x0202) = true := by decide
theorem test_rndVxKk_masked : exec (.rndVxKk 0x3 0x00) (regs [(3, 0x55)] State.reset) =
    .next { regs [(3, 0x00)] State.reset with pc := 0x0202, draws := 1 } := by
  show Host.Outcome.next ((regs [(3, 0x55)] State.reset).draw.2.writeV 0x3 (Config.randomByte 0 &&& 0x00#8)).advance = _
  rw [BitVec.and_zero]
  rfl
/-- R197: the example, glyph 0 at the corner; and R198's clip at column 63 with the wrap of rows. -/
theorem test_drwVxVyN : after (word 0xD015 { State.reset with I := 0x0050 })
    (fun t => t.FB[0] == 0xF000000000000000 && t.FB[1] == 0x9000000000000000 && t.FB[4] == 0xF000000000000000 &&
      t.FB[5] == 0 && t.readV 0xF == 0x00) = true := by decide
theorem test_drwVxVyN_clips : after (word 0xD122 { bytes 0x300 [0xFF, 0x81]
      (regs [(1, 60), (2, 63)] { State.reset with FB := Vector.replicate 32 0x1 }) with I := 0x0300 })
    (fun t => t.FB[31] == 0xE && t.FB[0] == 0x9 && t.readV 0xF == 0x01) = true := by decide
/-- R210, R211, R216: the level of key `Vx[3:0]`. -/
theorem test_skpVx : after (word 0xE29E (press 5 (regs [(2, 0x05)] State.reset))) (fun t => t.pc == 0x0204) = true := by decide
theorem test_skpVx_low_bits : after (word 0xE29E (press 5 (regs [(2, 0xF5)] State.reset))) (fun t => t.pc == 0x0204) = true := by
  decide
theorem test_sknpVx : after (word 0xE2A1 (press 5 (regs [(2, 0x05)] State.reset))) (fun t => t.pc == 0x0202) = true := by decide
theorem test_sknpVx_up : after (word 0xE2A1 (regs [(2, 0x05)] State.reset)) (fun t => t.pc == 0x0204) = true := by decide
/-- R212 to R215: the examples. -/
theorem test_ldVxDT : after (word 0xF307 { State.reset with DT := 0x3C, ST := 0x11 })
    (fun t => t.readV 3 == 0x3C && t.DT == 0x3C) = true := by decide
theorem test_ldVxK : after (word 0xF50A (press 3 (press 7 State.reset)))
    (fun t => t.readV 5 == 3 && t.pc == 0x0202) = true := by decide
theorem test_ldVxK_waits : after (word 0xF50A) (fun t => t == word 0xF50A) = true := by decide
theorem test_ldDTVx : after (word 0xF315 (regs [(3, 0x3C)] State.reset)) (fun t => t.DT == 0x3C && t.ST == 0x00) = true := by
  decide
theorem test_ldSTVx : after (word 0xF318 (regs [(3, 0x02)] State.reset))
    (fun t => t.ST == 0x02 && t.DT == 0x00 && t.soundPlaying) = true := by decide
/-- R101: the example. -/
theorem test_undefined_word : after (word 0x8018) (fun t => t == { word 0x8018 with pc := 0x0202 }) = true := by decide
/-- R66, R237: nothing is fetched at 0xFFF, whatever is there; the last fetch is at 0xFFE. -/
theorem test_fetch_bound : faults { stack 16 0 (bytes 0xFFF [0x22] State.reset) with pc := 0x0FFF } .addressOutOfRange = true := by
  decide
theorem test_fetch_last : after (word 0x6005 { State.reset with pc := 0x0FFE })
    (fun t => t.readV 0 == 5 && t.pc == 0x1000) = true := by decide
/-- R68: an odd `pc` fetches like any other. -/
theorem test_fetch_odd : after (word 0x1234 { State.reset with pc := 0x0301 }) (fun t => t.pc == 0x0234) = true := by decide

/-! ### Host events -/

theorem test_tick : (State.timerTick { State.reset with DT := 1, ST := 0 }).DT = 0 ∧
    (State.timerTick { State.reset with DT := 1, ST := 0 }).ST = 0 := by decide
theorem test_load : (State.reset.apply (.loadProgram [0x12, 0x00])).1.load 0x200 = 0x12 ∧
    (State.reset.apply (.loadProgram [0x12, 0x00])).2 = .ok := by decide
theorem test_reset_font : State.reset.load 0x50 = 0xF0 ∧ State.reset.load 0x9F = 0x80 ∧ State.reset.load 0x4F = 0x00 ∧
    State.reset.load 0xA0 = 0x00 := by decide
/-- R5, R271: a machine with another `FONT`, whose font a store has changed, has it back after `Reset`. -/
theorem test_reset_other_font :
    let s := bytes 0x50 [0x11] (State.resetWith (Vector.replicate 80 0xAA))
    s.load 0x50 = 0x11 ∧ s.load 0x51 = 0xAA ∧ (s.apply .reset).1.load 0x50 = 0xAA ∧ (s.apply .reset).1.load 0xA0 = 0x00 := by
  decide

/-! ### Witnesses: every hypothesis of every obligation is met, each clause at the edges of its range -/

theorem witness_OpcodeMapDecides : (0x8124#16 &&& opcodeMap[13].mask = opcodeMap[13].bits) ∧
    decodeWord 0x8124 = .instr (opcodeMap[13].build 0x8124) := by decide
theorem witness_DecoderCounts : (0x0010#16 &&& opcodeMap[0].mask = opcodeMap[0].bits) ∧
    decodeWord 0xF0FF = .undefined 0xF0FF := by decide
theorem witness_UndefinedWordsAreNoOps : (word 0x8018).fetch = some 0x8018 ∧ decodeWord 0x8018 = .undefined 0x8018 := by
  decide
theorem witness_FetchIsBigEndian_out : 0xFFF ≤ (State.setPc State.reset 0x0FFF).pc.toNat := by decide
theorem witness_FetchIsBigEndian_in : (State.setPc State.reset 0x0FFE).pc.toNat < 0xFFF := by decide
theorem witness_StepRunsDecodedInstruction : (word 0x1234).pc.toNat < 0xFFF ∧
    decodeBytes ((word 0x1234).load (word 0x1234).pc.toNat) ((word 0x1234).load ((word 0x1234).pc.toNat + 1)) =
      .instr (.jp 0x234) ∧
    decodeBytes ((word 0x0FFF).load (word 0x0FFF).pc.toNat) ((word 0x0FFF).load ((word 0x0FFF).pc.toNat + 1)) =
      .undefined 0x0FFF := by decide
theorem witness_StepFaultsExactlyWhere : faults (State.setPc State.reset 0x0FFF) .addressOutOfRange = true ∧
    faults (word 0x2300 (stack 16 0 State.reset)) .stackOverflow = true ∧ faults (word 0x0FFE) .stackUnderflow = true := by
  decide
theorem witness_StepFaultsExactlyWhere_completes : completes (word 0x1234) := ⟨_, rfl⟩
theorem witness_FaultsChangeNothing : ((word 0x00EE).apply .step).2 = .fault .stackUnderflow ∧
    (State.reset.apply (.setKey 16 true)).2 = .error .invalidKeyIndex := by decide
theorem witness_ReturnPopsStack : (stack 1 0x0FFE State.reset).sp.val = (0 : Fin 16).val + 1 ∧
    (stack 16 0x0FFF State.reset).sp.val = (15 : Fin 16).val + 1 ∧ 0xFFF ≤ ((stack 16 0x0FFF State.reset).S[15]).toNat := by
  decide
theorem witness_ReturnPopsStack_empty : Instr.ret = .ret ∧ State.reset.sp.val = 0 := by decide
theorem witness_ReturnPopsStack_fault : step (word 0x00EE) = .fault .stackUnderflow := rfl
theorem witness_JumpSetsPc : (0xFFF#12).toNat = 0xFFF ∧ State.reset.pc.toNat = (0x200#12).toNat := by decide
theorem witness_CallPushesReturnAddress : (stack 15 0 State.reset).sp.val < 16 ∧ State.reset.sp.val = 0 ∧
    (stack 16 0 State.reset).sp.val = 16 ∧ (State.setPc State.reset 0x0FFE).pc.toNat < 0xFFF := by decide
theorem witness_CallPushesReturnAddress_fault : step (word 0x2300 (stack 16 0 State.reset)) = .fault .stackOverflow := rfl
theorem witness_CallPushesReturnAddress_return : after (word 0x2300)
    (fun t => decide (({ t with pc := 0x0400 } : State).S = t.S ∧ ({ t with pc := 0x0400 } : State).sp = t.sp)) = true := by
  decide
theorem witness_IndexedJumpSetsPc : 0xFFF ≤ ((regs [(0, 0x01)] State.reset).readV 0x0).toNat + (0xFFE#12).toNat ∧
    ¬ 0xFFF ≤ (State.reset.readV 0x0).toNat + (0xFFE#12).toNat := by decide
/-- Both flag values, for `x` other than 0xF (the premises inside `setsFlagged`). -/
theorem witness_AddWritesCarry : (0x1#4 ≠ 0xF#4) ∧ (0xFF#8).toNat + (0x01#8).toNat > 255 ∧
    ¬ (0xFF#8).toNat + (0x00#8).toNat > 255 := by decide
theorem witness_SubtractWritesNotBorrow : (0x07#8).toNat ≤ (0x07#8).toNat ∧ ¬ (0x08#8).toNat ≤ (0x07#8).toNat := by decide
theorem witness_ShiftsWriteBitOut : (0x01#8).toNat % 2 = 1 ∧ 128 ≤ (0x80#8).toNat ∧ ¬ 128 ≤ (0x7F#8).toNat := by decide
/-- `I = 0xFFF`: the three bytes are at 0xFFF, 0x000, 0x001; the next address is outside them. -/
theorem witness_DecimalStore : State.reset.MEM.wf defaultFont = true ∧ ∀ k, k < 3 → (0xFFF + k) % 4096 ≠ 0x002 % 4096 := by decide
theorem witness_BlockStore : State.reset.MEM.wf defaultFont = true ∧ (0xF#4).toNat ≤ (0xF#4).toNat ∧
    ∀ k, k ≤ (0xF#4).toNat → (0xFF8 + k) % 4096 ≠ 0x008 % 4096 := by decide
theorem witness_MemoryReadAfterWrite : (bytes 0x300 [1, 2] State.reset).MEM.wf defaultFont = true ∧ 0x1300 % 4096 = 0x300 % 4096 := by
  decide
theorem witness_CanonicalMemoryUnique : (bytes 0x300 [1, 0] State.reset).MEM.wf defaultFont = true ∧
    (bytes 0x300 [1] State.reset).MEM.wf defaultFont = true ∧ (bytes 0x300 [1, 0] State.reset).MEM = (bytes 0x300 [1] State.reset).MEM := by
  decide
/-- At 0x200 `F155` with `I = 0x202`: `V0` and `V1` become the next word, `00E0`. -/
theorem witness_StoreSeenByNextFetch :
    let s : State := { word 0xF155 (regs [(1, 0xE0)] State.reset) with I := 0x0202 }
    s.MEM.wf s.FONT = true ∧ s.pc.toNat < 0xFFD ∧ 1 ≤ (0x1#4).toNat ∧
      decodeBytes (s.load s.pc.toNat) (s.load (s.pc.toNat + 1)) = .instr (.ldIndVx 0x1) ∧
      s.I.toNat % 4096 = s.pc.toNat + 2 ∧ decodeBytes (s.readV 0x0) (s.readV 0x1) = .instr .cls := by decide
theorem witness_OnlyMemoryHasAddresses : 0 < bytesStored (.ldBVx 0x0) ∧ 0 < bytesStored (.ldIndVx 0x0) ∧
    ({ State.reset with DT := 7 } : State).V = State.reset.V ∧
    (∀ a, ({ State.reset with DT := 7 } : State).load a = State.reset.load a) ∧
    ({ State.reset with DT := 7 } : State).I = State.reset.I := ⟨by decide, by decide, rfl, fun _ => rfl, rfl⟩
theorem witness_RandomAndMask : (0x0F#8).getLsbD 4 = false ∧ (0x0F#8).getLsbD 8 = false := by decide
theorem witness_OnlyRandomDraws : draws .cls = false ∧ exec .cls State.reset = exec .cls State.reset ∧
    ¬ completes (State.setPc State.reset 0x0FFF) := by
  refine ⟨rfl, rfl, ?_⟩
  rintro ⟨t, ht⟩
  have hf : step (State.setPc State.reset 0x0FFF) = .fault .addressOutOfRange := rfl
  exact nomatch hf.symm.trans ht
theorem witness_DrawTogglesSprite :
    let s := regs [(1, 0x7F), (2, 0x3F)] State.reset
    63 = (s.readV 0x1).toNat % 64 ∧ 31 = (s.readV 0x2).toNat % 32 := by decide
/-- A pixel at the clip and the wrap: glyph 0 drawn from column 63, row 31 sets pixel (31, 63) and, in its second row,
(0, 63). -/
theorem witness_drawn : drawn { State.reset with I := 0x0050 } 63 31 2 0 63 := ⟨1, 0, by decide⟩
theorem witness_DoubleDrawRestores :
    let s : State := { State.reset with I := 0x0050 }
    let t := ((s.setFB (s.drawRows 0 0 5).1).writeV 0xF 0x00).advance
    exec (.drwVxVyN 0x0 0x1 0x5) s = .next t ∧ (t.readV 0x0).toNat % 64 = (s.readV 0x0).toNat % 64 ∧
      (t.readV 0x1).toNat % 32 = (s.readV 0x1).toNat % 32 ∧ s.pixel 0 0 = false ∧ t.pixel 0 0 = true :=
  ⟨rfl, by decide⟩
theorem witness_KeySkips : (0x5#4).toNat = ((regs [(2, 0xF5)] State.reset).readV 0x2).toNat % 16 := by decide
theorem witness_KeyWaitPolls_pressed : (press 3 (press 7 State.reset)).key 0x3 = true ∧
    ∀ j : Nibble, j.toNat < (0x3#4).toNat → (press 3 (press 7 State.reset)).key j = false := by decide
theorem witness_KeyWaitPolls_none : (∀ k : Nibble, (word 0xF50A).key k = false) ∧ (word 0xF50A).fetch = some 0xF50A ∧
    decodeWord 0xF50A = .instr (.ldVxK 0x5) := by decide
/-- A run of one tick and one step of `CLS`: no step executes an `LD DT,Vx`. -/
theorem witness_DelayTimerNeverRises : ∀ (before after : List Event) (x : Nibble) (iw : Word),
    ([.timerTick, .step] : List Event) = before ++ .step :: after →
    ((word 0x00E0).applyAll before).fetch = some iw → decodeWord iw ≠ .instr (.ldDTVx x) := by
  intro before after x iw he hf
  have hb : before = [.timerTick] := by
    match before, he with
    | [], he => exact absurd he (by simp)
    | [b], he => simp at he; simp [← he.1]
    | b :: c :: l, he => simp at he
  subst hb
  rw [show ((word 0x00E0).applyAll [.timerTick]).fetch = some 0x00E0 by decide] at hf
  obtain rfl := Option.some.inj hf
  rw [show decodeWord 0x00E0 = .instr .cls by decide]
  simp
theorem witness_SetKeySetsOneKey : (0 ≤ (0 : Int) ∧ (0 : Int) < 16) ∧ (0 ≤ (15 : Int) ∧ (15 : Int) < 16) ∧
    ((-1 : Int) < 0 ∨ 16 ≤ (-1 : Int)) ∧ ((16 : Int) < 0 ∨ 16 ≤ (16 : Int)) := by decide
theorem witness_LoadProgramPlacesBytes : (List.replicate 3584 0x12#8).length ≤ 3584 ∧
    3584 < (List.replicate 3585 0x12#8).length ∧ State.reset.MEM.wf defaultFont = true ∧ 0x1FF < 0x200 ∧
    ([] : List Byte).length ≤ 3584 := by
  simp only [List.length_replicate]
  decide
theorem witness_GeneralRegisterFrame : exec (.addVxVy 0x1 0x2) State.reset =
    .next ((State.reset.writeFlagged 0x1 (0x00, false)).advance) ∧ writesV (.addVxVy 0x1 0x2) 0x2 = false :=
  ⟨rfl, rfl⟩
theorem witness_RegisterReadsAreTabled : regs [(3, 9)] State.reset = { State.reset with V := (regs [(3, 9)] State.reset).V } ∧
    ∀ r : Nibble, readsV (.addVxVy 0x1 0x2) r = true → (regs [(3, 9)] State.reset).readV r = State.reset.readV r := by
  decide
/-- The last byte of a wrapped block, and the first byte outside it. -/
theorem witness_MemoryFrame : exec (.ldIndVx 0x1) { State.reset with I := 0x0FFF } =
      .next (({ State.reset with I := 0x0FFF } : State).storeList 0xFFF [0x00, 0x00]).advance ∧
    (∀ k, k < bytesStored (.ldIndVx 0x1) → (0xFFF + k) % 4096 ≠ 0x001 % 4096) ∧
    ¬ (∀ k, k < bytesStored (.ldIndVx 0x1) → (0xFFF + k) % 4096 ≠ 0x000 % 4096) :=
  ⟨rfl, by decide⟩
/-- Another memory and another `FONT`, alike at the two bytes read; both memories are canonical. -/
theorem witness_MemoryReadsAreTabled :
    let s : State := { State.reset with I := 0x0300 }
    let s' : State := { bytes 0x302 [7] (State.resetWith (Vector.replicate 80 0xAA)) with I := 0x0300 }
    s' = { s with MEM := s'.MEM, FONT := s'.FONT } ∧
      (∀ k, k < bytesRead (.drwVxVyN 0x0 0x0 0x2) → s'.load (s.I.toNat + k) = s.load (s.I.toNat + k)) ∧
      s.MEM.wf s.FONT = true ∧ s'.MEM.wf s'.FONT = true :=
  ⟨rfl, by decide, by decide, by decide⟩
theorem witness_SpecialRegisterFrame : exec .cls State.reset = .next ((State.reset.setFB State.reset.FB).advance) ∧
    writesI .cls = false ∧ (∀ nnn, Instr.cls ≠ .call nnn) ∧ Instr.cls ≠ .ret ∧ (∀ x, Instr.cls ≠ .ldDTVx x) ∧
    (∀ x, Instr.cls ≠ .ldSTVx x) ∧ draws .cls = false :=
  ⟨rfl, rfl, by simp, by simp, by simp, by simp, rfl⟩
theorem witness_SpecialRegisterFrame_FB : exec (.jp 0x300) State.reset = .next (State.reset.setPc 0x0300) ∧
    Instr.jp 0x300 ≠ .cls ∧ (∀ x y n, Instr.jp 0x300 ≠ .drwVxVyN x y n) := ⟨rfl, by simp, by simp⟩
/-- The bound of the stack is reached: a `CALL` at 0xFFE pushes 0x1000, and the invariant holds there. -/
theorem witness_StepKeepsInvariant : inv (word 0x2300 { State.reset with pc := 0x0FFE }) ∧
    after (word 0x2300 { State.reset with pc := 0x0FFE }) (fun t => t.S[0] == 0x1000) = true := by decide
theorem witness_EventsKeepInvariant : inv State.reset := by decide
theorem witness_ReachableStatesBounded : reachable State.reset ∧ completes State.reset := ⟨⟨defaultFont, [], rfl⟩, _, rfl⟩
theorem witness_EndOfRunIsStable : endOfRun (word 0x1200) = true ∧
    ∀ e ∈ ([.step, .timerTick] : List Event), e = .step ∨ e = .timerTick ∨ ∃ k p, e = .setKey k p :=
  ⟨by decide, by simp⟩

end Sys2Proof.Tests
end

section
/-! The fetch (`20_memory.md` R66): O8. -/

namespace Sys2Proof

theorem wordOfBytes_toNat (hi lo : Byte) : (wordOfBytes hi lo).toNat = hi.toNat * 256 + lo.toNat := by
  calc (wordOfBytes hi lo).toNat
    _ = hi.toNat <<< 8 ||| lo.toNat := BitVec.toNat_append hi lo
    _ = hi.toNat <<< 8 + lo.toNat := (Nat.shiftLeft_add_eq_or_of_lt lo.isLt hi.toNat).symm
    _ = hi.toNat * 256 + lo.toNat := by rw [Nat.shiftLeft_eq]

end Sys2Proof

namespace Sys2Proof.Machine

/-- Settles O8: both sides of the bound are the fetch's own laws, and the word of two bytes has the high byte first. -/
theorem fetchIsBigEndian : Obligations.FetchIsBigEndian := by
  intro s
  constructor
  · intro hge
    exact ⟨s.fetch_eq_none.2 hge, step_of_ge s hge⟩
  · intro hlt
    exact ⟨_, s.fetch_of_lt hlt, wordOfBytes_toNat _ _⟩

end Sys2Proof.Machine
end

section
/-! The undefined words, and the step of a decoded word (`30_encoding.md` R90, R101): O7, O9. -/

namespace Sys2Proof

/-! ### The fields of a word as numbers, and of a number as a word (R94) -/

theorem family_toNat (iw : Word) : (family iw).toNat = iw.toNat / 4096 := by
  rw [family, BitVec.extractLsb'_toNat, Nat.shiftRight_eq_div_pow, Nat.mod_eq_of_lt]
  omega

theorem fieldN_toNat (iw : Word) : (fieldN iw).toNat = iw.toNat % 16 := BitVec.extractLsb'_toNat ..

theorem fieldKk_toNat (iw : Word) : (fieldKk iw).toNat = iw.toNat % 256 := BitVec.extractLsb'_toNat ..

theorem family_ofNat (n : Nat) : family (BitVec.ofNat 16 n) = BitVec.ofNat 4 (n / 4096) := by
  apply BitVec.eq_of_toNat_eq
  simp only [family_toNat, BitVec.toNat_ofNat]
  omega

theorem fieldX_ofNat (n : Nat) : fieldX (BitVec.ofNat 16 n) = BitVec.ofNat 4 (n / 256) := by
  apply BitVec.eq_of_toNat_eq
  simp only [fieldX, BitVec.extractLsb'_toNat, BitVec.toNat_ofNat, Nat.shiftRight_eq_div_pow]
  omega

theorem fieldY_ofNat (n : Nat) : fieldY (BitVec.ofNat 16 n) = BitVec.ofNat 4 (n / 16) := by
  apply BitVec.eq_of_toNat_eq
  simp only [fieldY, BitVec.extractLsb'_toNat, BitVec.toNat_ofNat, Nat.shiftRight_eq_div_pow]
  omega

theorem fieldN_ofNat (n : Nat) : fieldN (BitVec.ofNat 16 n) = BitVec.ofNat 4 n := by
  apply BitVec.eq_of_toNat_eq
  simp only [fieldN_toNat, BitVec.toNat_ofNat]
  omega

/-! ### R101's list, by fields -/

/-- The words that R101 lists as undefined: four families, each with its sub-selectors. -/
def listedUndefined (iw : Word) : Prop :=
  (family iw = 0x0#4 ∧ fieldN iw ∉ [0x0#4, 0xE#4]) ∨
  (family iw = 0x8#4 ∧ fieldN iw ∈ [0x8#4, 0x9#4, 0xA#4, 0xB#4, 0xC#4, 0xD#4, 0xF#4]) ∨
  (family iw = 0xE#4 ∧ fieldN iw ∉ [0x1#4, 0xE#4]) ∨
  (family iw = 0xF#4 ∧ fieldKk iw ∉ [0x07#8, 0x0A#8, 0x15#8, 0x18#8, 0x1E#8, 0x29#8, 0x33#8, 0x55#8, 0x65#8])

theorem listedUndefined_iff_toNat (iw : Word) : listedUndefined iw ↔
    (iw.toNat / 4096 = 0x0 ∧ iw.toNat % 16 ≠ 0x0 ∧ iw.toNat % 16 ≠ 0xE) ∨
    (iw.toNat / 4096 = 0x8 ∧ iw.toNat % 16 ∈ [0x8, 0x9, 0xA, 0xB, 0xC, 0xD, 0xF]) ∨
    (iw.toNat / 4096 = 0xE ∧ iw.toNat % 16 ≠ 0x1 ∧ iw.toNat % 16 ≠ 0xE) ∨
    (iw.toNat / 4096 = 0xF ∧ iw.toNat % 256 ∉ [0x07, 0x0A, 0x15, 0x18, 0x1E, 0x29, 0x33, 0x55, 0x65]) := by
  simp [listedUndefined, BitVec.toNat_eq, family_toNat, fieldN_toNat, fieldKk_toNat]

/-- Family 0x8's undefined low nibbles are the ones that none of its nine rows has. -/
theorem mem_undefined8_iff (n : Nibble) : n ∈ [0x8#4, 0x9#4, 0xA#4, 0xB#4, 0xC#4, 0xD#4, 0xF#4] ↔
    n ∉ [0x0#4, 0x1#4, 0x2#4, 0x3#4, 0x4#4, 0x5#4, 0x6#4, 0x7#4, 0xE#4] := by
  revert n
  decide

theorem nibble_cases (f : Nibble) : f = 0x0#4 ∨ f = 0x1#4 ∨ f = 0x2#4 ∨ f = 0x3#4 ∨ f = 0x4#4 ∨ f = 0x5#4 ∨ f = 0x6#4 ∨
    f = 0x7#4 ∨ f = 0x8#4 ∨ f = 0x9#4 ∨ f = 0xA#4 ∨ f = 0xB#4 ∨ f = 0xC#4 ∨ f = 0xD#4 ∨ f = 0xE#4 ∨ f = 0xF#4 := by
  revert f
  decide

/-- The listed words are those that no mask of the opcode map selects: a mask test asks the nibbles one by one. -/
theorem listedUndefined_iff_no_row (iw : Word) :
    listedUndefined iw ↔ ∀ row ∈ opcodeMap, iw &&& row.mask ≠ row.bits := by
  rw [listedUndefined, mem_undefined8_iff]
  simp only [opcodeMap, List.cons_append, List.nil_append, List.forall_mem_cons, ne_eq, and_eq_iff_fields,
    BitVec.ofNat_eq_ofNat, family_ofNat, fieldX_ofNat, fieldY_ofNat, fieldN_ofNat, Nat.reduceDiv, BitVec.reduceOfNat,
    nibble_and_F, BitVec.and_zero]
  rcases nibble_cases (family iw) with h | h | h | h | h | h | h | h | h | h | h | h | h | h | h | h
  -- In each family the rows of the others drop out; the map has family 0xE's low nibble 0xE before 0x1.
  all_goals simp [h, fieldKk_eq_iff, @and_comm (¬ fieldN iw = 0xE#4)]

/-! ### The decoder answers undefined for the listed words and no others -/

theorem decodeFamily0_undefined_iff (iw : Word) :
    decodeFamily0 iw = .undefined iw ↔ fieldN iw ∉ [0x0#4, 0xE#4] := by
  unfold decodeFamily0
  split <;> simp_all

theorem decodeFamily8_undefined_iff (iw : Word) : decodeFamily8 iw = .undefined iw ↔
    fieldN iw ∈ [0x8#4, 0x9#4, 0xA#4, 0xB#4, 0xC#4, 0xD#4, 0xF#4] := by
  rw [mem_undefined8_iff]
  unfold decodeFamily8
  split <;> simp_all

theorem decodeFamilyE_undefined_iff (iw : Word) :
    decodeFamilyE iw = .undefined iw ↔ fieldN iw ∉ [0x1#4, 0xE#4] := by
  unfold decodeFamilyE
  split <;> simp_all

theorem decodeFamilyF_undefined_iff (iw : Word) : decodeFamilyF iw = .undefined iw ↔
    fieldKk iw ∉ [0x07#8, 0x0A#8, 0x15#8, 0x18#8, 0x1E#8, 0x29#8, 0x33#8, 0x55#8, 0x65#8] := by
  unfold decodeFamilyF
  split <;> simp_all

/-- Twelve families hold one instruction each; in the other four the sub-selector decides. -/
theorem decodeWord_undefined_iff (iw : Word) : decodeWord iw = .undefined iw ↔ listedUndefined iw := by
  unfold listedUndefined
  rcases nibble_cases (family iw) with h | h | h | h | h | h | h | h | h | h | h | h | h | h | h | h
  all_goals simp [h, decodeWord, decodeFamily0_undefined_iff, decodeFamily8_undefined_iff, decodeFamilyE_undefined_iff,
    decodeFamilyF_undefined_iff]

end Sys2Proof

namespace Sys2Proof.Machine

/-- Settles O7: R101's list is what the decoder leaves over and what the rows leave over, family by family. -/
theorem undefinedWordsAreNoOps : Obligations.UndefinedWordsAreNoOps :=
  ⟨fun iw => (decodeWord_undefined_iff iw).trans (listedUndefined_iff_toNat iw),
    fun iw => (decodeWord_undefined_iff iw).trans (listedUndefined_iff_no_row iw),
    fun s _ hf hd => step_of_undefined s hf hd⟩

/-- A faulting step, as an event: the fault is its result and the state is the one before (R234). -/
theorem State.apply_step_of_fault {s : State} {f : Fault} (h : step s = .fault f) : s.apply .step = (s, .fault f) :=
  congrArg s.settleStep h

/-- Settles O9: below the fetch bound the word fetched is that of the two bytes at `pc`, and of the cases of a step only
the one its decoding selects is left. -/
theorem stepRunsDecodedInstruction : Obligations.StepRunsDecodedInstruction := by
  intro s
  refine ⟨fun hlt => ?_, fun hge => State.apply_step_of_fault (step_of_ge s hge)⟩
  have hf := s.fetch_of_lt hlt
  refine ⟨fun i hd => step_of_instr s hf hd, fun iw hd => ?_⟩
  obtain ⟨hge, -⟩ | ⟨w, i, -, hw, hi, -⟩ | ⟨-, -, -, -, -, hs⟩ := step_cases s
  · omega
  · obtain rfl := Option.some.inj (hf.symm.trans hw)
    cases hd.symm.trans hi
  · exact hs

end Sys2Proof.Machine
end

section
/-! Control flow (`40_control_flow.md`): O12 to O16. -/

namespace Sys2Proof.Machine

open Sys2Proof.Safety

/-! ### Skips (R123 to R126, R129) -/

theorem State.skipIf_beq (s : State) (a b : Byte) :
    s.skipIf (a == b) = { s with pc := if a.toNat = b.toNat then s.pc + 4#16 else s.pc + 2#16 } := by
  simp only [State.skipIf_eq, beq_iff_eq, BitVec.toNat_inj]

theorem State.skipIf_bne (s : State) (a b : Byte) :
    s.skipIf (a != b) = { s with pc := if a.toNat = b.toNat then s.pc + 2#16 else s.pc + 4#16 } := by
  simp only [State.skipIf_eq, bne_iff_ne, ne_eq, ite_not, BitVec.toNat_inj]

/-- Settles O15: each skip compares the register with `kk` itself. -/
theorem skipOnImmediate : Obligations.SkipOnImmediate :=
  ⟨encoded_F000 0x3#4 _ fun _ => decodeWord_family3, encoded_F000 0x4#4 _ fun _ => decodeWord_family4,
    fun s x kk => ⟨congrArg _ (s.skipIf_beq (s.readV x) kk), congrArg _ (s.skipIf_bne (s.readV x) kk)⟩⟩

/-- Settles O16: each skip compares the two registers; a register equals itself. -/
theorem skipOnRegisters : Obligations.SkipOnRegisters := by
  refine ⟨encoded_F000 0x5#4 _ fun _ => decodeWord_family5, encoded_F000 0x9#4 _ fun _ => decodeWord_family9,
    fun s x y => ⟨congrArg _ (s.skipIf_beq (s.readV x) (s.readV y)), congrArg _ (s.skipIf_bne (s.readV x) (s.readV y)),
      ?_, ?_⟩⟩
  · rw [exec_seVxVy, execSeVxVy, State.skipIf_beq, if_pos rfl]
  · rw [exec_sneVxVy, execSneVxVy, State.skipIf_bne, if_pos rfl]

/-! ### Jumps (R121) -/

theorem zextNnn_toNat (nnn : Addr12) : (zextNnn nnn).toNat = nnn.toNat :=
  BitVec.toNat_setWidth_of_le (by decide)

/-- Settles O13: a target of 12 bits is the new `pc` as it stands, and `pc` is all that a jump writes. -/
theorem jumpSetsPc : Obligations.JumpSetsPc := by
  refine ⟨encoded_F000 0x1#4 _ fun _ => decodeWord_family1, fun s nnn => ?_⟩
  refine ⟨s.setPc (zextNnn nnn), rfl, zextNnn_toNat nnn, rfl, fun hend => step_of_ge _ ?_, fun hself => ?_⟩
  · exact ((zextNnn_toNat nnn).trans hend).ge
  · have hpc : zextNnn nnn = s.pc := BitVec.eq_of_toNat_eq ((zextNnn_toNat nnn).trans hself.symm)
    rw [hpc]
    rfl

/-! ### The two stack faults (R232, R233) -/

theorem exec_eq_stackUnderflow_iff (i : Instr) (s : State) :
    exec i s = .fault .stackUnderflow ↔ i = .ret ∧ s.sp.val = 0 := by
  constructor
  · intro hf
    obtain ⟨t, ht⟩ | ⟨hi, hsp, -⟩ | ⟨nnn, -, -, ho⟩ := exec_outcome i s
    · cases hf.symm.trans ht
    · exact ⟨hi, hsp⟩
    · cases hf.symm.trans ho
  · rintro ⟨rfl, hsp⟩
    exact execRet_of_empty s hsp

theorem exec_eq_stackOverflow_iff (i : Instr) (s : State) :
    exec i s = .fault .stackOverflow ↔ (∃ nnn, i = .call nnn) ∧ s.sp.val = 16 := by
  constructor
  · intro hf
    obtain ⟨t, ht⟩ | ⟨-, -, hu⟩ | ⟨nnn, hi, hsp, -⟩ := exec_outcome i s
    · cases hf.symm.trans ht
    · cases hf.symm.trans hu
    · exact ⟨⟨nnn, hi⟩, hsp⟩
  · rintro ⟨⟨nnn, rfl⟩, hsp⟩
    exact execCall_of_full s nnn hsp

/-! ### RET (R120) -/

theorem decodeWord_ret {iw : Word} (hf : family iw = 0x0#4) (hn : fieldN iw = 0xE#4) :
    decodeWord iw = .instr .ret := by
  rw [decodeWord_family0 hf]
  unfold decodeFamily0
  rw [hn]
  rfl

theorem exec_ret_of_sp_succ (s : State) (k : Fin 16) (h : s.sp.val = k.val + 1) :
    exec .ret s = .next { s with sp := k.castSucc, pc := s.S[k.val] } := by
  have hk : s.sp.val - 1 = k.val := by omega
  have hsp : (⟨s.sp.val - 1, by omega⟩ : Fin 17) = k.castSucc := Fin.ext hk
  rw [exec_ret, execRet_of_pos s (by omega), hsp]
  simp only [hk]

/-- Settles O12: RET from `sp = k + 1` lands on entry `k`, where the next step tests the fetch bound. -/
theorem returnPopsStack : Obligations.ReturnPopsStack := by
  refine ⟨encoded_F00F 0x0#4 0xE#4 _ fun _ => decodeWord_ret, fun s k hk => ?_, exec_eq_stackUnderflow_iff,
    fun s => State.apply_step_of_fault, (exec_eq_stackUnderflow_iff _ _).2 ⟨rfl, rfl⟩⟩
  exact ⟨_, exec_ret_of_sp_succ s k hk, rfl, fun hge => step_of_ge _ hge⟩

/-! ### CALL (R122) -/

/-- The stack that a CALL leaves: one entry more, the return address, above those it had. -/
theorem stack_of_exec_call {s t : State} {nnn : Addr12} (h : exec (.call nnn) s = .next t) :
    t.sp.val = s.sp.val + 1 ∧
      ∀ k : Fin 16, t.S[k.val] = if k.val = s.sp.val then s.pc + 2#16 else s.S[k.val] := by
  by_cases hlt : s.sp.val < 16
  · cases (execCall_of_lt s nnn hlt).symm.trans h
    refine ⟨rfl, fun k => ?_⟩
    simp only [Vector.getElem_set, eq_comm]
  · have hfull : s.sp.val = 16 := by omega
    cases (execCall_of_full s nnn hfull).symm.trans h

/-- RET on the stack a CALL left undoes its push. -/
theorem exec_ret_after_call {s t u : State} {nnn : Addr12} (h : exec (.call nnn) s = .next t)
    (hS : u.S = t.S) (hsp : u.sp = t.sp) : exec .ret u = .next { u with sp := s.sp, pc := s.pc + 2#16 } := by
  obtain ⟨htop, hentry⟩ := stack_of_exec_call h
  have hlt : s.sp.val < 16 := by omega
  rw [exec_ret_of_sp_succ u ⟨s.sp.val, hlt⟩ (by rw [hsp, htop]), hS, hentry, if_pos rfl]
  rfl

/-- The state after `k` CALLs in a row, to `target 0`, `target 1` and so on; one that faults leaves it as it was. -/
def State.callChain (s : State) (target : Nat → Addr12) : Nat → State
  | 0 => s
  | k + 1 => ((s.callChain target k).settleStep (exec (.call (target k)) (s.callChain target k))).1

section
variable {s : State} (target : Nat → Addr12)

theorem State.exec_call_callChain {k : Nat} (h : (s.callChain target k).sp.val < 16) :
    exec (.call (target k)) (s.callChain target k) = .next (s.callChain target (k + 1)) := by
  rw [State.callChain, exec_call, execCall_of_lt _ _ h]
  rfl

theorem State.callChain_sp (h : s.sp.val = 0) {k : Nat} (hk : k ≤ 16) : (s.callChain target k).sp.val = k := by
  induction k with
  | zero => exact h
  | succ k ih =>
    have hsp := ih (by omega)
    have hlt : (s.callChain target k).sp.val < 16 := by omega
    obtain ⟨hnext, -⟩ := stack_of_exec_call (State.exec_call_callChain target hlt)
    omega

/-- A return address, once pushed, stays below the later ones. -/
theorem State.callChain_entry (h : s.sp.val = 0) (j : Fin 16) {k : Nat} (hj : j.val < k) (hk : k ≤ 16) :
    (s.callChain target k).S[j.val] = (s.callChain target j.val).pc + 2#16 := by
  induction k with
  | zero => omega
  | succ k ih =>
    have hsp := State.callChain_sp target h (show k ≤ 16 by omega)
    have hlt : (s.callChain target k).sp.val < 16 := by omega
    obtain ⟨-, hentry⟩ := stack_of_exec_call (State.exec_call_callChain target hlt)
    rw [hentry, hsp]
    by_cases hjk : j.val = k
    · rw [if_pos hjk, hjk]
    · rw [if_neg hjk, ih (by omega) (by omega)]

end

/-- Settles O14: the push, the return and the faults are the laws of CALL and RET above; the 16 nested calls are the
chain of states each call leaves. -/
theorem callPushesReturnAddress : Obligations.CallPushesReturnAddress := by
  refine ⟨encoded_F000 0x2#4 _ fun _ => decodeWord_family2, fun s nnn hlt => ?_, exec_eq_stackOverflow_iff,
    fun s => State.apply_step_of_fault, fun s target h0 => ?_⟩
  · have hcall := execCall_of_lt s nnn hlt
    obtain ⟨hsp, hentry⟩ := stack_of_exec_call hcall
    refine ⟨_, hcall, rfl, hsp, zextNnn_toNat nnn, hentry, fun hpc => ?_, fun u => exec_ret_after_call hcall⟩
    bv_omega
  · have hsp {k : Nat} (hk : k ≤ 16) := State.callChain_sp target h0 hk
    refine ⟨s.callChain target, rfl, fun k hk => State.exec_call_callChain target ((hsp hk.le).trans_lt hk),
      fun k => State.callChain_entry target h0 k k.isLt le_rfl, ?_⟩
    exact (exec_eq_stackOverflow_iff _ _).2 ⟨⟨_, rfl⟩, hsp le_rfl⟩

end Sys2Proof.Machine
end

section
/-! Loads and arithmetic on registers (`41_load_and_alu.md`): O18. -/

namespace Sys2Proof.Machine

open Sys2Proof.Safety

/-! ### The immediate forms (R140, R141) -/

theorem exec_ldVxKk_setsOne (s : State) (x : Nibble) (kk : Byte) :
    ∃ t, exec (.ldVxKk x kk) s = .next t ∧ setsOne x kk.toNat s t :=
  ⟨_, exec_ldVxKk x kk s, setsOne_writeV s x kk⟩

theorem exec_addVxKk_setsOne (s : State) (x : Nibble) (kk : Byte) :
    ∃ t, exec (.addVxKk x kk) s = .next t ∧ setsOne x (((s.readV x).toNat + kk.toNat) % 256) s t := by
  have hsum : (s.readV x + kk).toNat = ((s.readV x).toNat + kk.toNat) % 256 := BitVec.toNat_add ..
  exact ⟨_, exec_addVxKk x kk s, hsum ▸ setsOne_writeV s x (s.readV x + kk)⟩

/-- Settles O18: each form writes one register and advances `pc`, and a byte sum is the sum mod 256. -/
theorem immediateForms : Obligations.ImmediateForms :=
  ⟨encoded_F000 0x6#4 _ fun _ => decodeWord_family6, encoded_F000 0x7#4 _ fun _ => decodeWord_family7,
    fun s x kk => ⟨exec_ldVxKk_setsOne s x kk, exec_addVxKk_setsOne s x kk⟩⟩

end Sys2Proof.Machine
end

section
/-! The index register (`42_index_and_memory.md`): O23. -/

namespace Sys2Proof.Machine

open Sys2Proof.Safety

/-- Settles O23: the load zero-extends its 12-bit address, so `I` is that address, and advances `pc` (R170). -/
theorem indexLoad : Obligations.IndexLoad :=
  ⟨encoded_F000 0xA#4 _ fun _ => decodeWord_familyA,
    fun s nnn => ⟨_, exec_ldINnn nnn s, rfl, zextNnn_toNat nnn⟩⟩

end Sys2Proof.Machine
end

section
/-! Clearing the display (`44_display.md`): O34. -/

namespace Sys2Proof.Machine

open Sys2Proof.Safety

theorem decodeWord_cls {iw : Word} (hf : family iw = 0x0#4) (hn : fieldN iw = 0x0#4) :
    decodeWord iw = .instr .cls := by
  rw [decodeWord_family0 hf]
  unfold decodeFamily0
  rw [hn]
  rfl

/-- A framebuffer whose rows are all zero has every pixel off (R33). -/
theorem State.pixel_of_blank {s : State} (h : s.FB = Vector.replicate 32 0#64) (row : Fin 32) (col : Fin 64) :
    s.pixel row col = false := by
  simp only [State.pixel, h, Vector.getElem_replicate, BitVec.getMsbD_zero]

/-- Settles O34: CLS writes the blank framebuffer and advances `pc`, and a blank framebuffer has no pixel on. -/
theorem clearScreen : Obligations.ClearScreen :=
  ⟨encoded_F00F 0x0#4 0x0#4 _ fun _ => decodeWord_cls,
    fun s => ⟨_, exec_cls s, rfl, State.pixel_of_blank rfl⟩⟩

end Sys2Proof.Machine
end

section
/-! The wait for a key (`45_keypad_and_timers.md` R213): O38. -/

namespace Sys2Proof.Machine

open Sys2Proof.Safety

/-! ### Runs of events (R7) -/

theorem State.applyAll_append (s : State) (es fs : List Event) :
    s.applyAll (es ++ fs) = (s.applyAll es).applyAll fs := by
  induction es generalizing s with
  | nil => rfl
  | cons e es ih => exact ih (s.apply e).1

/-- An event that leaves the state as it is does so any number of times. -/
theorem State.applyAll_replicate_of_fixed {s : State} {e : Event} (h : (s.apply e).1 = s) (n : Nat) :
    s.applyAll (List.replicate n e) = s := by
  induction n with
  | zero => rfl
  | succ n ih => rw [List.replicate_succ, State.applyAll, h, ih]

/-- A completing step, as an event: its state, and `Ok` as its result. -/
theorem State.apply_step_of_next {s t : State} (h : step s = .next t) : s.apply .step = (t, .ok) :=
  congrArg s.settleStep h

/-! ### One key set (R243) -/

theorem State.apply_setKey (s : State) (k : Nibble) (pressed : Bool) :
    s.apply (.setKey k.toNat pressed) = ({ s with K := s.K.set k.toNat pressed k.isLt }, .ok) := by
  have hk : (0 : Int) ≤ k.toNat ∧ (k.toNat : Int) < 16 := by omega
  have hset : s.setKey k.toNat pressed = .ok { s with K := s.K.set k.toNat pressed k.isLt } := dif_pos hk
  exact congrArg s.settle hset

theorem State.key_apply_setKey (s : State) (k j : Nibble) (pressed : Bool) :
    (s.apply (.setKey k.toNat pressed)).1.key j = if j = k then pressed else s.key j := by
  simp only [State.apply_setKey, State.key, Vector.getElem_set, BitVec.toNat_inj, eq_comm]

/-! ### LD Vx,K (R213) -/

theorem decodeWord_ldVxK {iw : Word} (hf : family iw = 0xF#4) (hk : fieldKk iw = 0x0A#8) :
    decodeWord iw = .instr (.ldVxK (fieldX iw)) := by
  rw [decodeWord_familyF hf]
  unfold decodeFamilyF
  rw [hk]
  rfl

theorem exec_ldVxK_of_none {s : State} (x : Nibble) (h : ∀ k : Nibble, s.key k = false) :
    exec (.ldVxK x) s = .next s := by
  rw [exec_ldVxK, execLdVxK, s.firstKey_eq_none.2 h]

theorem exec_ldVxK_setsOne {s : State} (x : Nibble) {k : Nibble} (hk : s.key k = true)
    (hmin : ∀ j : Nibble, j.toNat < k.toNat → s.key j = false) :
    ∃ t, exec (.ldVxK x) s = .next t ∧ setsOne x k.toNat s t := by
  have hw : (k.setWidth 8).toNat = k.toNat := BitVec.toNat_setWidth_of_le (by decide)
  refine ⟨(s.writeV x (k.setWidth 8)).advance, ?_, hw ▸ setsOne_writeV s x (k.setWidth 8)⟩
  rw [exec_ldVxK, execLdVxK, s.firstKey_eq_some k hk hmin]

/-- When no other key is down, the key set is the lowest pressed one. -/
theorem exec_ldVxK_after_setKey {s : State} (x k : Nibble) (h : ∀ j : Nibble, s.key j = false) :
    ∃ t, exec (.ldVxK x) (s.apply (.setKey k.toNat true)).1 = .next t ∧
      setsOne x k.toNat (s.apply (.setKey k.toNat true)).1 t := by
  refine exec_ldVxK_setsOne x ?_ fun j hj => ?_
  · rw [State.key_apply_setKey, if_pos rfl]
  · have hne : j ≠ k := ne_of_apply_ne BitVec.toNat hj.ne
    rw [State.key_apply_setKey, if_neg hne, h]

/-- Settles O38: with no key down the step is a fixed point, so any number of them is; a key set leaves the fetch as it
was, and the next step finds that key. -/
theorem keyWaitPolls : Obligations.KeyWaitPolls := by
  refine ⟨encoded_F0FF 0xF#4 0x0A#8 _ fun _ => decodeWord_ldVxK, fun s x k => exec_ldVxK_setsOne x, fun s x hnone => ?_⟩
  refine ⟨exec_ldVxK_of_none x hnone, fun iw hf hd n => ?_⟩
  have hstep : step s = .next s := (step_of_instr s hf hd).trans (exec_ldVxK_of_none x hnone)
  have hwait : s.applyAll (List.replicate n .step) = s :=
    State.applyAll_replicate_of_fixed (congrArg Prod.fst (State.apply_step_of_next hstep)) n
  refine ⟨hwait, fun k => ?_⟩
  obtain ⟨t, hexec, hset⟩ := exec_ldVxK_after_setKey x k hnone
  have hfetch : (s.apply (.setKey k.toNat true)).1.fetch = some iw := by
    rw [State.apply_setKey]
    exact hf
  have hnext := State.apply_step_of_next ((step_of_instr _ hfetch hd).trans hexec)
  rw [State.applyAll_append, hwait, State.applyAll, State.applyAll, State.applyAll, hnext]
  exact hset

end Sys2Proof.Machine
end

section
/-! The timer ticks (`60_exceptions.md` R241): O40. -/

namespace Sys2Proof.Machine

/-- One tick is subtraction cut at 0: above 0 the byte subtraction does not wrap. -/
theorem tickDown_toNat (t : Byte) : (tickDown t).toNat = t.toNat - 1 := by
  unfold tickDown
  split
  · next hpos => exact BitVec.toNat_sub_of_le (BitVec.le_def.2 hpos)
  · next hzero => omega

theorem tickDown_iterate_toNat (t : Byte) (n : Nat) : (tickDown^[n] t).toNat = t.toNat - n := by
  induction n with
  | zero => rfl
  | succ n ih => rw [Function.iterate_succ_apply', tickDown_toNat, ih, Nat.sub_sub]

theorem State.applyAll_replicate_timerTick (s : State) (n : Nat) :
    s.applyAll (List.replicate n .timerTick) = { s with DT := tickDown^[n] s.DT, ST := tickDown^[n] s.ST } := by
  induction n generalizing s with
  | zero => rfl
  | succ n ih => exact ih s.timerTick

/-- Settles O40: a run of ticks iterates the tick of each timer and touches nothing else. -/
theorem ticksCountDown : Obligations.TicksCountDown := by
  intro s n
  rw [State.applyAll_replicate_timerTick]
  exact ⟨rfl, rfl, tickDown_iterate_toNat s.DT n, tickDown_iterate_toNat s.ST n⟩

end Sys2Proof.Machine
end

section
/-! Encoding and decoding (`30_encoding.md` sections 2 and 3): O1 to O6. -/

namespace Sys2Proof

open Sys2Proof.Machine Sys2Proof.Safety

/-! ### Fields as numbers (R94) -/

theorem fieldX_toNat (iw : Word) : (fieldX iw).toNat = iw.toNat / 256 % 16 := by
  rw [fieldX, BitVec.extractLsb'_toNat, Nat.shiftRight_eq_div_pow]

theorem fieldY_toNat (iw : Word) : (fieldY iw).toNat = iw.toNat / 16 % 16 := by
  rw [fieldY, BitVec.extractLsb'_toNat, Nat.shiftRight_eq_div_pow]

theorem fieldNnn_toNat (iw : Word) : (fieldNnn iw).toNat = iw.toNat % 4096 := BitVec.extractLsb'_toNat ..

/-- Settles O2: each field is a slice of the word, and a slice of a word of two bytes is one of one byte. -/
theorem fieldsSitWhereStated : Obligations.FieldsSitWhereStated := by
  refine ⟨fun iw => ⟨family_toNat iw, fieldX_toNat iw, fieldY_toNat iw, fieldN_toNat iw, fieldKk_toNat iw,
    fieldNnn_toNat iw⟩, fun hi lo => ?_⟩
  have hlo := lo.isLt
  rw [family_toNat, fieldX_toNat, fieldY_toNat, fieldN_toNat, wordOfBytes_toNat]
  exact ⟨by omega, by omega, lowByte_wordOfBytes hi lo, by omega, by omega⟩

/-! ### The rows of the opcode map (R97) -/

theorem encoded_family8 (n : Nibble) (build : Word → Instr)
    (h : ∀ iw, fieldN iw = n → decodeFamily8 iw = .instr (build iw)) :
    encoded 0xF00F#16 (wordXyn 0x8#4 0#4 0#4 n) build :=
  encoded_F00F 0x8#4 n build fun iw hf hn => (decodeWord_family8 hf).trans (h iw hn)

theorem encoded_familyE (n : Nibble) (build : Word → Instr)
    (h : ∀ iw, fieldN iw = n → decodeFamilyE iw = .instr (build iw)) :
    encoded 0xF00F#16 (wordXyn 0xE#4 0#4 0#4 n) build :=
  encoded_F00F 0xE#4 n build fun iw hf hn => (decodeWord_familyE hf).trans (h iw hn)

theorem encoded_familyF (kk : Byte) (build : Word → Instr)
    (h : ∀ iw, fieldKk iw = kk → decodeFamilyF iw = .instr (build iw)) :
    encoded 0xF0FF#16 (wordXyn 0xF#4 0#4 (kk.extractLsb' 4 4) (kk.extractLsb' 0 4)) build :=
  encoded_F0FF 0xF#4 kk build fun iw hf hk => (decodeWord_familyF hf).trans (h iw hk)

/-- Every word of a row decodes to the row's instruction: the map's four parts, row by row. -/
theorem encoded_of_mem : ∀ row ∈ opcodeMap, encoded row.mask row.bits row.build := by
  simp only [opcodeMap, List.forall_mem_append, List.forall_mem_cons, List.not_mem_nil,
    IsEmpty.forall_iff, implies_true, and_true]
  refine ⟨⟨⟨?low, ?family8⟩, ?high⟩, ?familyF⟩
  case low =>
    exact ⟨encoded_F00F 0x0#4 0x0#4 _ fun _ => decodeWord_cls, encoded_F00F 0x0#4 0xE#4 _ fun _ => decodeWord_ret,
      encoded_F000 0x1#4 _ fun _ => decodeWord_family1, encoded_F000 0x2#4 _ fun _ => decodeWord_family2,
      encoded_F000 0x3#4 _ fun _ => decodeWord_family3, encoded_F000 0x4#4 _ fun _ => decodeWord_family4,
      encoded_F000 0x5#4 _ fun _ => decodeWord_family5, encoded_F000 0x6#4 _ fun _ => decodeWord_family6,
      encoded_F000 0x7#4 _ fun _ => decodeWord_family7⟩
  case family8 =>
    refine ⟨encoded_family8 0x0#4 _ ?_, encoded_family8 0x1#4 _ ?_, encoded_family8 0x2#4 _ ?_,
      encoded_family8 0x3#4 _ ?_, encoded_family8 0x4#4 _ ?_, encoded_family8 0x5#4 _ ?_, encoded_family8 0x6#4 _ ?_,
      encoded_family8 0x7#4 _ ?_, encoded_family8 0xE#4 _ ?_⟩
    all_goals intro iw hn; simp only [decodeFamily8, hn]
  case high =>
    refine ⟨encoded_F000 0x9#4 _ fun _ => decodeWord_family9, encoded_F000 0xA#4 _ fun _ => decodeWord_familyA,
      encoded_F000 0xB#4 _ fun _ => decodeWord_familyB, encoded_F000 0xC#4 _ fun _ => decodeWord_familyC,
      encoded_F000 0xD#4 _ fun _ => decodeWord_familyD, encoded_familyE 0xE#4 _ ?_, encoded_familyE 0x1#4 _ ?_⟩
    all_goals intro iw hn; simp only [decodeFamilyE, hn]
  case familyF =>
    refine ⟨encoded_familyF 0x07#8 _ ?_, encoded_familyF 0x0A#8 _ ?_, encoded_familyF 0x15#8 _ ?_,
      encoded_familyF 0x18#8 _ ?_, encoded_familyF 0x1E#8 _ ?_, encoded_familyF 0x29#8 _ ?_, encoded_familyF 0x33#8 _ ?_,
      encoded_familyF 0x55#8 _ ?_, encoded_familyF 0x65#8 _ ?_⟩
    all_goals intro iw hk; simp only [decodeFamilyF, hk]

theorem encoded_row (k : Fin 34) : encoded opcodeMap[k].mask opcodeMap[k].bits opcodeMap[k].build :=
  encoded_of_mem _ (List.getElem_mem _)

/-- The constructors of `Instr` stand in the map's order, so the instruction of a row tells the row. -/
theorem ctorIdx_build (k : Fin 34) (iw : Word) : (opcodeMap[k].build iw).ctorIdx = k.val := by
  fin_cases k <;> rfl

/-- A word that decodes to an instruction lies in some row, which reads it as that instruction: no row would make it one
of the undefined words. -/
theorem exists_row_of_decodeWord {iw : Word} {i : Instr} (h : decodeWord iw = .instr i) :
    ∃ k : Fin 34, iw &&& opcodeMap[k].mask = opcodeMap[k].bits ∧ opcodeMap[k].build iw = i := by
  by_contra hno
  have hnone : ∀ row ∈ opcodeMap, iw &&& row.mask ≠ row.bits := by
    intro row hrow hmatch
    obtain ⟨k, hk, rfl⟩ := List.getElem_of_mem hrow
    exact hno ⟨⟨k, hk⟩, hmatch, Decoded.instr.inj ((encoded_row ⟨k, hk⟩ iw hmatch).symm.trans h)⟩
  have hundef := (decodeWord_undefined_iff iw).2 ((listedUndefined_iff_no_row iw).2 hnone)
  cases h.symm.trans hundef

/-- A row and the decoder agree on which words are the row's. -/
theorem row_matches_iff (iw : Word) (k : Fin 34) :
    iw &&& opcodeMap[k].mask = opcodeMap[k].bits ↔ decodeWord iw = .instr (opcodeMap[k].build iw) := by
  refine ⟨encoded_row k iw, fun h => ?_⟩
  obtain ⟨j, hj, hbuild⟩ := exists_row_of_decodeWord h
  have hjk : j.val = k.val := by rw [← ctorIdx_build j iw, hbuild, ctorIdx_build]
  exact Fin.ext hjk ▸ hj

/-- Settles O4: the rows are the decoder's, and two rows that match one word read it as the same instruction. -/
theorem opcodeMapDecides : Obligations.OpcodeMapDecides := by
  refine ⟨rfl, fun iw row hrow => ?_, fun iw j k hj hk => ?_⟩
  · obtain ⟨k, hk, rfl⟩ := List.getElem_of_mem hrow
    exact row_matches_iff iw ⟨k, hk⟩
  · have hbuild := Decoded.instr.inj ((encoded_row j iw hj).symm.trans (encoded_row k iw hk))
    exact Fin.ext (by rw [← ctorIdx_build j iw, hbuild, ctorIdx_build])

/-! ### Decode after encode (R98) -/

theorem encodesInRow (i : Instr) : Laws.EncodesInRow.Statement i := by
  open Laws.EncodesInRow in
  cases i with
  | cls => exact cls
  | ret => exact ret
  | jp nnn => exact jp nnn
  | call nnn => exact call nnn
  | seVxKk x kk => exact seVxKk x kk
  | sneVxKk x kk => exact sneVxKk x kk
  | seVxVy x y => exact seVxVy x y
  | ldVxKk x kk => exact ldVxKk x kk
  | addVxKk x kk => exact addVxKk x kk
  | ldVxVy x y => exact ldVxVy x y
  | orVxVy x y => exact orVxVy x y
  | andVxVy x y => exact andVxVy x y
  | xorVxVy x y => exact xorVxVy x y
  | addVxVy x y => exact addVxVy x y
  | subVxVy x y => exact subVxVy x y
  | shrVx x y => exact shrVx x y
  | subnVxVy x y => exact subnVxVy x y
  | shlVx x y => exact shlVx x y
  | sneVxVy x y => exact sneVxVy x y
  | ldINnn nnn => exact ldINnn nnn
  | jpV0Nnn nnn => exact jpV0Nnn nnn
  | rndVxKk x kk => exact rndVxKk x kk
  | drwVxVyN x y n => exact drwVxVyN x y n
  | skpVx x => exact skpVx x
  | sknpVx x => exact sknpVx x
  | ldVxDT x => exact ldVxDT x
  | ldVxK x => exact ldVxK x
  | ldDTVx x => exact ldDTVx x
  | ldSTVx x => exact ldSTVx x
  | addIVx x => exact addIVx x
  | ldFVx x => exact ldFVx x
  | ldBVx x => exact ldBVx x
  | ldIndVx x => exact ldIndVx x
  | ldVxInd x => exact ldVxInd x

theorem Instr.wellFormed_eq_true (i : Instr) : i.wellFormed = true := by cases i <;> rfl

theorem decodeWord_encode (i : Instr) : decodeWord (encode i) = .instr i := by
  obtain ⟨k, hmatch, hbuild⟩ := encodesInRow i
  exact (encoded_row k _ hmatch).trans (congrArg _ hbuild)

/-- Settles O3: a canonical word lies in its instruction's row, which the decoder answers; its two bytes make it again. -/
theorem decodeOfEncode : Obligations.DecodeOfEncode := by
  refine fun i => ⟨i.wellFormed_eq_true, decodeWord_encode i, ?_⟩
  rw [decodeBytes, encodeBytes, wordOfBytes_bytes, decodeWord_encode]

/-! ### Counting undefined words (R99) -/

/-- A predicate of period `a` holds equally often in each of `k` periods. -/
theorem countP_range_mul (p : Nat → Bool) (a : Nat) (hp : ∀ w, p (a + w) = p w) (k : Nat) :
    (List.range (a * k)).countP p = k * (List.range a).countP p := by
  induction k with
  | zero => simp
  | succ k ih =>
    have hshift : p ∘ (a + ·) = p := funext hp
    rw [Nat.mul_succ, Nat.add_comm, List.range_add, List.countP_append, List.countP_map, hshift, ih, Nat.succ_mul,
      Nat.add_comm]

/-- R101's list for the words of family `f`, by the number `w` in the low twelve bits. -/
def undefinedIn (f w : Nat) : Bool :=
  (f == 0x0 && (w % 16 != 0x0 && w % 16 != 0xE)) ||
  (f == 0x8 && [0x8, 0x9, 0xA, 0xB, 0xC, 0xD, 0xF].contains (w % 16)) ||
  (f == 0xE && (w % 16 != 0x1 && w % 16 != 0xE)) ||
  (f == 0xF && !([0x07, 0x0A, 0x15, 0x18, 0x1E, 0x29, 0x33, 0x55, 0x65].contains (w % 256)))

theorem decodeWord_undefined_iff_undefinedIn (f : Nibble) {w : Nat} (hw : w < 4096) :
    decodeWord (BitVec.ofNat 16 (f.toNat * 4096 + w)) = .undefined (BitVec.ofNat 16 (f.toNat * 4096 + w)) ↔
      undefinedIn f.toNat w = true := by
  have hn : (BitVec.ofNat 16 (f.toNat * 4096 + w)).toNat = f.toNat * 4096 + w := Nat.mod_eq_of_lt (by omega)
  have hf : (f.toNat * 4096 + w) / 4096 = f.toNat := by omega
  have h16 : (f.toNat * 4096 + w) % 16 = w % 16 := by omega
  have h256 : (f.toNat * 4096 + w) % 256 = w % 256 := by omega
  rw [decodeWord_undefined_iff, listedUndefined_iff_toNat, hn, hf, h16, h256]
  simp [undefinedIn, or_assoc]

theorem undefinedIn_periodic (f w : Nat) : undefinedIn f (256 + w) = undefinedIn f w := by
  have h16 : (256 + w) % 16 = w % 16 := by omega
  have h256 : (256 + w) % 256 = w % 256 := by omega
  rw [undefinedIn, undefinedIn, h16, h256]

theorem countP_undefined (f : Nibble) :
    ((List.range 4096).countP fun w =>
      decodeWord (BitVec.ofNat 16 (f.toNat * 4096 + w)) == .undefined (BitVec.ofNat 16 (f.toNat * 4096 + w))) =
    16 * (List.range 256).countP (undefinedIn f.toNat) := by
  rw [← countP_range_mul _ 256 (undefinedIn_periodic f.toNat) 16]
  refine List.countP_congr fun w hw => ?_
  rw [beq_iff_eq, decodeWord_undefined_iff_undefinedIn f (List.mem_range.1 hw)]

theorem countP_undefinedIn_256 (f : Nibble) : (List.range 256).countP (undefinedIn f.toNat) =
    if f = 0x0 then 224 else if f = 0x8 then 112 else if f = 0xE then 224 else if f = 0xF then 247 else 0 := by
  revert f
  decide +kernel

/-- Settles O5: a word with no row is listed, so it is undefined; its family and low byte alone say whether it is listed,
so a family's count is 16 times that of one low byte's range. -/
theorem decoderCounts : Obligations.DecoderCounts := by
  refine ⟨fun iw => ?_, rfl, rfl, rfl, fun f => ?_⟩
  · by_cases hlist : listedUndefined iw
    · exact .inr ⟨(decodeWord_undefined_iff iw).2 hlist, fun k =>
        (listedUndefined_iff_no_row iw).1 hlist _ (List.getElem_mem _)⟩
    · simp only [listedUndefined_iff_no_row, not_forall, not_not] at hlist
      obtain ⟨row, hrow, hmatch⟩ := hlist
      obtain ⟨k, hk, rfl⟩ := List.getElem_of_mem hrow
      exact .inl ⟨⟨k, hk⟩, hmatch, encoded_row ⟨k, hk⟩ iw hmatch⟩
  · rw [countP_undefined, countP_undefinedIn_256]
    split_ifs <;> rfl

/-! ### Sample words and aliases (R97, R98) -/

/-- Settles O1: the decoder computes each of them. -/
theorem sampleWordsDecode : Obligations.SampleWordsDecode := by
  unfold Obligations.SampleWordsDecode
  decide

/-- Settles O6: the fields of a word of four nibbles are these nibbles, and the decoder looks at no others than the row's. -/
theorem aliasesDecodeAlike : Obligations.AliasesDecodeAlike := by
  refine ⟨rfl, rfl, fun x y => ⟨encode_skpVx x, encode_sknpVx x, encode_seVxVy x y, encode_sneVxVy x y⟩,
    fun x y n => ⟨?_, ?_, ?_, ?_, ?_, ?_⟩⟩
  · exact decodeWord_cls (family_wordXyn ..) (fieldN_wordXyn ..)
  · exact decodeWord_ret (family_wordXyn ..) (fieldN_wordXyn ..)
  · exact (decodeWord_familyE (family_wordXyn ..)).trans (by simp [decodeFamilyE])
  · exact (decodeWord_familyE (family_wordXyn ..)).trans (by simp [decodeFamilyE])
  · exact (decodeWord_family5 (family_wordXyn ..)).trans (by rw [fieldX_wordXyn, fieldY_wordXyn])
  · exact (decodeWord_family9 (family_wordXyn ..)).trans (by rw [fieldX_wordXyn, fieldY_wordXyn])

end Sys2Proof
end

section
/-! Memory and its canonical form (`20_memory.md` section 2): O28, O29. -/

namespace Sys2Proof.Machine

variable {FONT : Font}

theorem Memory.wfFrom_cons_iff (lo a : Nat) (v : Byte) (m : Memory) : Memory.wfFrom FONT lo ((a, v) :: m) = true ↔
    lo ≤ a ∧ a < 4096 ∧ v ≠ resetByte FONT a ∧ Memory.wfFrom FONT (a + 1) m = true := by
  simp only [Memory.wfFrom, Bool.and_eq_true, decide_eq_true_eq, and_assoc]

@[simp] theorem Memory.read_head (a : Nat) (v : Byte) (m : Memory) : Memory.read FONT ((a, v) :: m) a = v := if_pos rfl

theorem Memory.read_tail {a b : Nat} (h : b ≠ a) (v : Byte) (m : Memory) :
    Memory.read FONT ((a, v) :: m) b = Memory.read FONT m b := if_neg h

/-- A listed byte differs from what its address reads as in a canonical memory that starts above it. -/
theorem Memory.read_ne_of_wfFrom {lo a : Nat} {v : Byte} {m n : Memory} (hm : Memory.wfFrom FONT lo ((a, v) :: m) = true)
    (hn : Memory.wfFrom FONT (a + 1) n = true) : Memory.read FONT ((a, v) :: m) a ≠ Memory.read FONT n a := by
  obtain ⟨-, -, hv, -⟩ := (Memory.wfFrom_cons_iff ..).1 hm
  rwa [Memory.read_head, Memory.read_of_lt hn (Nat.lt_succ_self a)]

/-- From the same address upward, canonical memories that read alike list the same cells: the first cells have the same
address, or the lower one would be told by its byte. -/
theorem Memory.eq_of_read_eq {lo : Nat} {m n : Memory} (hm : Memory.wfFrom FONT lo m = true)
    (hn : Memory.wfFrom FONT lo n = true)
    (h : ∀ a, lo ≤ a → a < 4096 → Memory.read FONT m a = Memory.read FONT n a) : m = n := by
  induction m generalizing lo n with
  | nil =>
    cases n with
    | nil => rfl
    | cons d n =>
      obtain ⟨hb, hb', -⟩ := (Memory.wfFrom_cons_iff lo d.1 d.2 n).1 hn
      exact absurd (h d.1 hb hb').symm (Memory.read_ne_of_wfFrom hn rfl)
  | cons c m ih =>
    obtain ⟨a, v⟩ := c
    obtain ⟨ha, ha', -, hm'⟩ := (Memory.wfFrom_cons_iff ..).1 hm
    cases n with
    | nil => exact absurd (h a ha ha') (Memory.read_ne_of_wfFrom hm rfl)
    | cons d n =>
      obtain ⟨b, w⟩ := d
      obtain ⟨hb, hb', hw, hn'⟩ := (Memory.wfFrom_cons_iff ..).1 hn
      rcases lt_trichotomy a b with hab | rfl | hab
      · have hn'' : Memory.wfFrom FONT (a + 1) ((b, w) :: n) = true := (Memory.wfFrom_cons_iff ..).2 ⟨hab, hb', hw, hn'⟩
        exact absurd (h a ha ha') (Memory.read_ne_of_wfFrom hm hn'')
      · have hvw : v = w := by simpa using h a ha ha'
        have htail : m = n := ih hm' hn' fun c hc hc' => by
          have hca : c ≠ a := by omega
          simpa only [Memory.read_tail hca] using h c (by omega) hc'
        rw [hvw, htail]
      · obtain ⟨-, -, hv, -⟩ := (Memory.wfFrom_cons_iff ..).1 hm
        have hm'' : Memory.wfFrom FONT (b + 1) ((a, v) :: m) = true := (Memory.wfFrom_cons_iff ..).2 ⟨hab, ha', hv, hm'⟩
        exact absurd (h b hb hb').symm (Memory.read_ne_of_wfFrom hn hm'')

/-- Settles O29: both memories are canonical from address 0 upward. -/
theorem canonicalMemoryUnique : Obligations.CanonicalMemoryUnique := by
  intro FONT m n hm hn h
  refine Memory.eq_of_read_eq hm hn fun a _ ha => ?_
  have hmod : a % 4096 = a := Nat.mod_eq_of_lt ha
  simpa only [memRead, hmod] using h a ha

/-- Settles O28: one write at the reduced address keeps the form, is read back there, and is seen nowhere else. -/
theorem memoryReadAfterWrite : Obligations.MemoryReadAfterWrite := by
  intro FONT m a b v hm
  refine ⟨Memory.wf_write hm (Nat.mod_lt a (by decide)) v, ?_⟩
  by_cases hab : b % 4096 = a % 4096
  · rw [if_pos hab, memRead, memWrite, hab]
    exact Memory.read_write_same hm _ v
  · rw [if_neg hab]
    exact Memory.read_write_other m hab v

end Sys2Proof.Machine
end

section
/-! What an instruction changes (`10_state.md` sections 1 and 2, `20_memory.md` section 5): O46, O48, O50. -/

namespace Sys2Proof.Machine

open Sys2Proof.Safety

/-! ### The instructions whose completion has more than one case -/

theorem exec_ret_next {s t : State} (h : exec .ret s = .next t) :
    ∃ k : Fin 16, s.sp.val = k.val + 1 ∧ t = { s with sp := k.castSucc, pc := s.S[k.val] } := by
  by_cases h0 : s.sp.val = 0
  · cases h.symm.trans (execRet_of_empty s h0)
  · have hk : s.sp.val = (s.sp.val - 1) + 1 := by omega
    have hret := exec_ret_of_sp_succ s ⟨s.sp.val - 1, by omega⟩ hk
    exact ⟨_, hk, Host.Outcome.next.inj (h.symm.trans hret)⟩

theorem exec_call_next {s t : State} {nnn : Addr12} (h : exec (.call nnn) s = .next t) :
    t = { s with S := t.S, sp := t.sp, pc := zextNnn nnn } := by
  by_cases hlt : s.sp.val < 16
  · cases h.symm.trans (execCall_of_lt s nnn hlt)
    rfl
  · cases h.symm.trans (execCall_of_full s nnn (by omega))

theorem exec_ldVxK_next {s t : State} {x : Nibble} (h : exec (.ldVxK x) s = .next t) :
    t = s ∨ ∃ v, t = (s.writeV x v).advance := by
  rw [exec_ldVxK, execLdVxK] at h
  cases hk : s.firstKey with
  | none => rw [hk] at h; exact .inl (Host.Outcome.next.inj h).symm
  | some k => rw [hk] at h; exact .inr ⟨k, (Host.Outcome.next.inj h).symm⟩

theorem exec_ldVxInd_next {s t : State} {x : Nibble} (h : exec (.ldVxInd x) s = .next t) :
    t = { s with V := t.V, pc := s.pc + 2#16 } := by
  obtain rfl := (Host.Outcome.next.inj h).symm
  rw [State.loadBlock_eq]
  rfl

/-! ### General registers (R22) -/

/-- Settles O46: every other instruction leaves the registers alone, or writes one, or the flag and one, or the block
`V0 .. Vx`. -/
theorem generalRegisterFrame : Obligations.GeneralRegisterFrame := by
  intro i s t h r
  cases i
  case ret => obtain ⟨k, -, rfl⟩ := exec_ret_next h; exact fun _ => rfl
  case call nnn => rw [exec_call_next h]; exact fun _ => rfl
  case ldVxK x => obtain rfl | ⟨v, rfl⟩ := exec_ldVxK_next h <;> simp +contextual [writesV]
  case ldVxInd x =>
    obtain rfl := (Host.Outcome.next.inj h).symm
    have hx : x.toNat + 1 ≤ 16 := x.isLt
    simp only [writesV, decide_eq_false_iff_not, State.readV_advance, State.readV_loadBlock _ _ _ hx]
    exact fun hr => if_neg (by omega)
  all_goals
    obtain rfl := (Host.Outcome.next.inj h).symm
    simp +contextual [writesV]

/-! ### Special registers (R25, R31 to R33) -/

/-- Settles O50: every other instruction is a chain of updates of the fields it is listed as writing. -/
theorem specialRegisterFrame : Obligations.SpecialRegisterFrame := by
  intro i s t h
  cases i
  case ret => obtain ⟨k, -, rfl⟩ := exec_ret_next h; simp
  case call nnn => rw [exec_call_next h]; simp
  case ldVxK x => obtain rfl | ⟨v, rfl⟩ := exec_ldVxK_next h <;> simp
  case ldVxInd x => rw [exec_ldVxInd_next h]; simp
  all_goals
    obtain rfl := (Host.Outcome.next.inj h).symm
    simp [writesI, draws]

/-! ### Memory (R70) -/

/-- The bytes that an instruction stores from `I` upward (R70): decimal digits, a register block, or none. -/
def storedBytes : Instr → State → List Byte
  | .ldBVx x, s => bcdDigits (s.readV x)
  | .ldIndVx x, s => s.regBlock x
  | _, _ => []

theorem storedBytes_length (i : Instr) (s : State) : (storedBytes i s).length = bytesStored i := by
  cases i
  case ldIndVx x => exact s.regBlock_length x
  all_goals rfl

theorem exec_next_MEM {i : Instr} {s t : State} (h : exec i s = .next t) :
    t.MEM = memWriteList s.FONT s.MEM s.base (storedBytes i s) := by
  cases i
  case ret => obtain ⟨k, -, rfl⟩ := exec_ret_next h; rfl
  case call nnn => rw [exec_call_next h]; rfl
  case ldVxK x => obtain rfl | ⟨v, rfl⟩ := exec_ldVxK_next h <;> rfl
  case ldVxInd x => rw [exec_ldVxInd_next h]; rfl
  all_goals
    obtain rfl := (Host.Outcome.next.inj h).symm
    simp [storedBytes, memWriteList]

theorem exec_next_FONT {i : Instr} {s t : State} (h : exec i s = .next t) : t.FONT = s.FONT := by
  obtain ⟨-, -, -, -, -, -, hFONT, -, -⟩ := specialRegisterFrame i s t h
  exact hFONT

/-- After an instruction memory reads as before but for the bytes stored. -/
theorem exec_next_load {i : Instr} {s t : State} (h : exec i s = .next t) (a : Nat) :
    t.load a = (s.storeList s.base (storedBytes i s)).load a := by
  rw [State.load, exec_next_FONT h, exec_next_MEM h]
  rfl

/-- Settles O48: a sequence of stores touches its own addresses only. -/
theorem memoryFrame : Obligations.MemoryFrame := by
  intro i s t h a ha
  rw [exec_next_load h]
  exact s.load_storeList_other _ _ a (by rwa [storedBytes_length])

end Sys2Proof.Machine
end

section
/-! The step's faults, and what a fault or a rejection changes (`60_exceptions.md` sections 1 and 4): O10, O11, O17. -/

namespace Sys2Proof

open Sys2Proof.Machine Sys2Proof.Safety

theorem decodeWord_eq_ret_iff (iw : Word) : decodeWord iw = .instr .ret ↔ family iw = 0x0#4 ∧ fieldN iw = 0xE#4 :=
  (row_matches_iff iw 1).symm.trans (and_F00F_eq_iff iw 0x0#4 0xE#4)

theorem decodeWord_eq_call_iff (iw : Word) : (∃ nnn, decodeWord iw = .instr (.call nnn)) ↔ family iw = 0x2#4 := by
  refine ⟨fun ⟨nnn, h⟩ => ?_, fun h => ⟨_, decodeWord_family2 h⟩⟩
  obtain ⟨k, hmatch, hbuild⟩ := exists_row_of_decodeWord h
  have hk : k = 3 := Fin.ext (by rw [← ctorIdx_build k iw, hbuild]; rfl)
  subst hk
  exact (and_F000_eq_iff iw 0x2#4).1 hmatch

end Sys2Proof

namespace Sys2Proof.Machine

open Sys2Proof.Safety

theorem exec_ne_refused (i : Instr) (s : State) (r : Refusal) : exec i s ≠ .refused r := by
  intro h
  obtain ⟨t, ht⟩ | ⟨-, -, hu⟩ | ⟨nnn, -, -, ho⟩ := exec_outcome i s
  · cases h.symm.trans ht
  · cases h.symm.trans hu
  · cases h.symm.trans ho

theorem exec_ne_addressOutOfRange (i : Instr) (s : State) : exec i s ≠ .fault .addressOutOfRange := by
  intro h
  obtain ⟨t, ht⟩ | ⟨-, -, hu⟩ | ⟨nnn, -, -, ho⟩ := exec_outcome i s
  · cases h.symm.trans ht
  · cases h.symm.trans hu
  · cases h.symm.trans ho

theorem step_ne_refused (s : State) (r : Refusal) : step s ≠ .refused r := by
  intro h
  obtain ⟨-, hs⟩ | ⟨iw, i, -, -, -, hs⟩ | ⟨iw, w, -, -, -, hs⟩ := step_cases s
  · cases h.symm.trans hs
  · exact exec_ne_refused i s r (hs.symm.trans h)
  · cases h.symm.trans hs

theorem step_eq_addressOutOfRange_iff (s : State) : step s = .fault .addressOutOfRange ↔ 0xFFF ≤ s.pc.toNat := by
  refine ⟨fun h => ?_, step_of_ge s⟩
  obtain ⟨hge, -⟩ | ⟨iw, i, -, -, -, hs⟩ | ⟨iw, w, -, -, -, hs⟩ := step_cases s
  · exact hge
  · exact absurd (hs.symm.trans h) (exec_ne_addressOutOfRange i s)
  · cases h.symm.trans hs

/-- A fault other than the fetch's is that of the instruction fetched. -/
theorem step_eq_fault_iff (s : State) {f : Fault} (hf : f ≠ .addressOutOfRange) :
    step s = .fault f ↔ s.pc.toNat < 0xFFF ∧
      ∃ i, decodeBytes (s.load s.pc.toNat) (s.load (s.pc.toNat + 1)) = .instr i ∧ exec i s = .fault f := by
  constructor
  · intro h
    obtain ⟨-, hs⟩ | ⟨iw, i, hlt, hw, hd, hs⟩ | ⟨iw, w, -, -, -, hs⟩ := step_cases s
    · exact absurd (Host.Outcome.fault.inj (h.symm.trans hs)) hf
    · obtain rfl := Option.some.inj ((s.fetch_of_lt hlt).symm.trans hw)
      exact ⟨hlt, i, hd, hs.symm.trans h⟩
    · cases h.symm.trans hs
  · rintro ⟨hlt, i, hd, hi⟩
    exact (step_of_instr s (s.fetch_of_lt hlt) hd).trans hi

theorem step_eq_stackOverflow_iff (s : State) : step s = .fault .stackOverflow ↔
    s.pc.toNat < 0xFFF ∧ s.sp.val = 16 ∧ (s.load s.pc.toNat).toNat / 16 = 0x2 := by
  obtain ⟨hfamily, -⟩ := fieldsSitWhereStated.2 (s.load s.pc.toNat) (s.load (s.pc.toNat + 1))
  have hcall : (∃ nnn, decodeBytes (s.load s.pc.toNat) (s.load (s.pc.toNat + 1)) = .instr (.call nnn)) ↔
      (s.load s.pc.toNat).toNat / 16 = 0x2 := by
    rw [← hfamily]
    exact (decodeWord_eq_call_iff _).trans BitVec.toNat_inj.symm
  rw [step_eq_fault_iff s (f := .stackOverflow) (by decide), ← hcall]
  constructor
  · rintro ⟨hlt, i, hd, hfault⟩
    obtain ⟨⟨nnn, rfl⟩, hsp⟩ := (exec_eq_stackOverflow_iff i s).1 hfault
    exact ⟨hlt, hsp, nnn, hd⟩
  · rintro ⟨hlt, hsp, nnn, hd⟩
    exact ⟨hlt, _, hd, (exec_eq_stackOverflow_iff _ s).2 ⟨⟨nnn, rfl⟩, hsp⟩⟩

theorem step_eq_stackUnderflow_iff (s : State) : step s = .fault .stackUnderflow ↔
    s.pc.toNat < 0xFFF ∧ s.sp.val = 0 ∧ (s.load s.pc.toNat).toNat / 16 = 0x0 ∧
      (s.load (s.pc.toNat + 1)).toNat % 16 = 0xE := by
  obtain ⟨hfamily, -, -, -, hn⟩ := fieldsSitWhereStated.2 (s.load s.pc.toNat) (s.load (s.pc.toNat + 1))
  have hret : decodeBytes (s.load s.pc.toNat) (s.load (s.pc.toNat + 1)) = .instr .ret ↔
      (s.load s.pc.toNat).toNat / 16 = 0x0 ∧ (s.load (s.pc.toNat + 1)).toNat % 16 = 0xE := by
    rw [← hfamily, ← hn]
    exact (decodeWord_eq_ret_iff _).trans (and_congr BitVec.toNat_inj.symm BitVec.toNat_inj.symm)
  rw [step_eq_fault_iff s (f := .stackUnderflow) (by decide), ← hret]
  constructor
  · rintro ⟨hlt, i, hd, hfault⟩
    obtain ⟨rfl, hsp⟩ := (exec_eq_stackUnderflow_iff i s).1 hfault
    exact ⟨hlt, hsp, hd⟩
  · rintro ⟨hlt, hsp, hd⟩
    exact ⟨hlt, _, hd, (exec_eq_stackUnderflow_iff _ s).2 ⟨rfl, hsp⟩⟩

/-- A step that does not fault completes, for none is refused. -/
theorem completes_iff (s : State) : completes s ↔ ∀ f, step s ≠ .fault f := by
  constructor
  · rintro ⟨t, ht⟩ f hf
    cases ht.symm.trans hf
  intro h
  cases hs : step s with
  | next t => exact ⟨t, hs⟩
  | fault f => exact absurd hs (h f)
  | refused r => exact absurd hs (step_ne_refused s r)

/-- Settles O10: the fetch fault is tested first; the other two are those of the instruction that the two bytes decode
to. -/
theorem stepFaultsExactlyWhere : Obligations.StepFaultsExactlyWhere := fun s =>
  ⟨step_eq_addressOutOfRange_iff s, step_eq_stackOverflow_iff s, step_eq_stackUnderflow_iff s, completes_iff s,
    step_ne_refused s⟩

/-! ### What a fault or a rejection changes (R234, R243, R244) -/

theorem step_of_apply_step_fault {s : State} {f : Fault} (h : (s.apply .step).2 = .fault f) : step s = .fault f := by
  unfold State.apply at h
  cases hs : step s <;> rw [hs] at h <;> cases h
  rfl

/-- The Step event leaves the state as it is, or in the step's next state. -/
theorem State.apply_step_cases (s : State) : (s.apply .step).1 = s ∨ step s = .next (s.apply .step).1 := by
  unfold State.apply
  cases step s with
  | next t => exact .inr rfl
  | fault f => exact .inl rfl
  | refused r => exact .inl rfl

theorem State.settle_of_error {s : State} {r : Except HostError State} {e : HostError}
    (h : (s.settle r).2 = .error e) : (s.settle r).1 = s := by
  cases r with
  | ok t => cases h
  | error e' => rfl

theorem State.apply_of_error {s : State} {e : Event} {err : HostError} (h : (s.apply e).2 = .error err) :
    (s.apply e).1 = s := by
  cases e with
  | reset => cases h
  | loadProgram bytes => exact State.settle_of_error h
  | setKey index pressed => exact State.settle_of_error h
  | timerTick => cases h
  | step =>
    unfold State.apply at h
    cases hs : step s <;> rw [hs] at h <;> cases h

/-- Settles O11: a faulting step is a fixed point of the Step event, and the host calls keep the state they reject in. -/
theorem faultsChangeNothing : Obligations.FaultsChangeNothing := by
  refine fun s => ⟨fun f hf => ?_, fun e err => State.apply_of_error⟩
  have hfixed : (s.apply .step).1 = s := by rw [State.apply_step_of_fault (step_of_apply_step_fault hf)]
  refine ⟨hfixed, fun n => ?_⟩
  rw [State.applyAll_replicate_of_fixed hfixed]
  exact ⟨rfl, hf⟩

/-! ### The indexed jump (R127) -/

theorem zextByte_toNat (v : Byte) : (zextByte v).toNat = v.toNat := BitVec.toNat_setWidth_of_le (by decide)

/-- The sum of a byte and twelve bits fits in `pc`. -/
theorem indexedTarget_toNat (v : Byte) (nnn : Addr12) : (zextByte v + zextNnn nnn).toNat = v.toNat + nnn.toNat := by
  rw [BitVec.toNat_add, zextByte_toNat, zextNnn_toNat, Nat.mod_eq_of_lt]
  omega

/-- Settles O17: the target is the sum of two numbers too small to wrap, and `pc` is all that the jump writes. -/
theorem indexedJumpSetsPc : Obligations.IndexedJumpSetsPc := by
  refine ⟨encoded_row 20, fun s nnn => ?_⟩
  have hpc := indexedTarget_toNat (s.readV 0x0#4) nnn
  exact ⟨_, exec_jpV0Nnn nnn s, rfl, hpc, fun hge => step_of_ge _ (hpc ▸ hge)⟩

end Sys2Proof.Machine
end

section
/-! The invariant (`10_state.md` R29, R40): O51 to O54. -/

namespace Sys2Proof.Machine

open Sys2Proof.Safety

/-! ### Where an instruction leaves `pc`, and what it leaves on the stack -/

/-- `pc` stays, advances, skips, jumps to a target of at most `0xFF + 0xFFF`, or takes a stack entry. -/
theorem exec_next_pc {i : Instr} {s t : State} (h : exec i s = .next t) :
    t.pc = s.pc ∨ t.pc = s.pc + 2#16 ∨ t.pc = s.pc + 4#16 ∨ t.pc.toNat ≤ 0xFF + 0xFFF ∨
      ∃ k : Fin 16, t.pc = s.S[k.val] := by
  cases i
  case ret => obtain ⟨k, -, rfl⟩ := exec_ret_next h; exact .inr (.inr (.inr (.inr ⟨k, rfl⟩)))
  case call nnn =>
    rw [exec_call_next h, zextNnn_toNat]
    exact .inr (.inr (.inr (.inl (by omega))))
  case jp nnn =>
    obtain rfl := (Host.Outcome.next.inj h).symm
    rw [State.setPc_pc, zextNnn_toNat]
    exact .inr (.inr (.inr (.inl (by omega))))
  case jpV0Nnn nnn =>
    obtain rfl := (Host.Outcome.next.inj h).symm
    rw [State.setPc_pc, indexedTarget_toNat]
    exact .inr (.inr (.inr (.inl (by omega))))
  case ldVxK x =>
    obtain rfl | ⟨v, rfl⟩ := exec_ldVxK_next h
    · exact .inl rfl
    · exact .inr (.inl rfl)
  case ldVxInd x => rw [exec_ldVxInd_next h]; exact .inr (.inl rfl)
  case seVxKk | sneVxKk | seVxVy | sneVxVy | skpVx | sknpVx =>
    obtain rfl := (Host.Outcome.next.inj h).symm
    rw [State.skipIf_pc]
    split
    · exact .inr (.inr (.inl rfl))
    · exact .inr (.inl rfl)
  all_goals
    obtain rfl := (Host.Outcome.next.inj h).symm
    exact .inr (.inl rfl)

/-- A stack entry stays, or is the return address of a CALL. -/
theorem exec_next_S {i : Instr} {s t : State} (h : exec i s = .next t) (k : Fin 16) :
    t.S[k.val] = s.S[k.val] ∨ t.S[k.val] = s.pc + 2#16 := by
  by_cases hcall : ∃ nnn, i = .call nnn
  · obtain ⟨nnn, rfl⟩ := hcall
    rw [(stack_of_exec_call h).2 k]
    split
    · exact .inr rfl
    · exact .inl rfl
  · obtain ⟨-, hS, -⟩ := specialRegisterFrame i s t h
    exact .inl (by rw [hS fun nnn hi => hcall ⟨nnn, hi⟩])

/-- Below the fetch bound an instruction keeps the invariant. -/
theorem exec_next_inv {i : Instr} {s t : State} (hs : inv s) (hlt : s.pc.toNat < 0xFFF) (h : exec i s = .next t) :
    inv t := by
  obtain ⟨hmem, -, hstack⟩ := hs
  refine ⟨?_, ?_, fun k => ?_⟩
  · rw [exec_next_FONT h, exec_next_MEM h]
    exact memWriteList_wf hmem _ _
  · obtain hpc | hpc | hpc | hpc | ⟨k, hpc⟩ := exec_next_pc h
    · rw [hpc]; omega
    · rw [hpc]; bv_omega
    · rw [hpc]; bv_omega
    · omega
    · have := hstack k
      rw [hpc]; omega
  · obtain hk | hk := exec_next_S h k
    · exact hk ▸ hstack k
    · rw [hk]; bv_omega

/-- A step that completes is below the fetch bound, and is the fetched instruction's or the no-op. -/
theorem step_next_cases {s t : State} (h : step s = .next t) : s.pc.toNat < 0xFFF ∧
    ((∃ iw i, s.fetch = some iw ∧ decodeWord iw = .instr i ∧ exec i s = .next t) ∨ t = s.advance) := by
  obtain ⟨-, hfault⟩ | ⟨iw, i, hlt, hf, hd, hexec⟩ | ⟨iw, w, hlt, -, -, hnop⟩ := step_cases s
  · cases h.symm.trans hfault
  · exact ⟨hlt, .inl ⟨iw, i, hf, hd, hexec.symm.trans h⟩⟩
  · exact ⟨hlt, .inr (Host.Outcome.next.inj (h.symm.trans hnop))⟩

/-- Settles O52: an instruction keeps the invariant below the fetch bound, and so does the no-op's advance. -/
theorem stepKeepsInvariant : Obligations.StepKeepsInvariant := by
  intro s t hs h
  obtain ⟨hlt, ⟨iw, i, -, -, hexec⟩ | rfl⟩ := step_next_cases h
  · exact exec_next_inv hs hlt hexec
  · obtain ⟨hmem, -, hstack⟩ := hs
    exact ⟨hmem, by rw [State.advance_pc]; bv_omega, hstack⟩

/-! ### Reset and the other events -/

theorem resetWith_inv (FONT : Font) : inv (State.resetWith FONT) := by
  refine ⟨rfl, ?_, fun k => ?_⟩ <;> simp [State.resetWith]

/-- Settles O51: an empty memory is canonical, and so for the default `FONT` too. -/
theorem resetHasInvariant : Obligations.ResetHasInvariant := ⟨resetWith_inv defaultFont, resetWith_inv⟩

theorem State.loadProgram_inv {s t : State} {bytes : List Byte} (hs : inv s) (h : s.loadProgram bytes = .ok t) :
    inv t := by
  obtain ⟨hmem, hpc, hstack⟩ := hs
  unfold State.loadProgram at h
  split at h
  · cases h
  · obtain rfl := (Except.ok.inj h).symm
    exact ⟨memWriteList_wf hmem _ _, hpc, hstack⟩

theorem State.setKey_inv {s t : State} {index : Int} {pressed : Bool} (hs : inv s) (h : s.setKey index pressed = .ok t) :
    inv t := by
  unfold State.setKey at h
  split at h
  · obtain rfl := (Except.ok.inj h).symm
    exact hs
  · cases h

theorem State.settle_inv {s : State} {r : Except HostError State} (hs : inv s) (hr : ∀ t, r = .ok t → inv t) :
    inv (s.settle r).1 := by
  cases r with
  | ok t => exact hr t rfl
  | error e => exact hs

/-- Settles O53: a step by O52, a host call as far as it is accepted; ticks touch nothing that the invariant speaks of. -/
theorem eventsKeepInvariant : Obligations.EventsKeepInvariant := by
  intro s e hs
  cases e with
  | reset => exact resetWith_inv s.FONT
  | loadProgram bytes => exact State.settle_inv hs fun t => State.loadProgram_inv hs
  | setKey index pressed => exact State.settle_inv hs fun t => State.setKey_inv hs
  | timerTick => exact hs
  | step =>
    obtain h | h := s.apply_step_cases
    · rwa [h]
    · exact stepKeepsInvariant s _ hs h

theorem State.applyAll_inv {s : State} (hs : inv s) (es : List Event) : inv (s.applyAll es) := by
  induction es generalizing s with
  | nil => exact hs
  | cons e es ih => exact ih (eventsKeepInvariant s e hs)

/-- Settles O54: Reset establishes the invariant and every event keeps it; at 0xFFF and above the fetch faults. -/
theorem reachableStatesBounded : Obligations.ReachableStatesBounded := by
  rintro s ⟨FONT, es, rfl⟩
  obtain ⟨hmem, hpc, hstack⟩ := State.applyAll_inv (resetWith_inv FONT) es
  refine ⟨Nat.lt_succ_iff.1 (Fin.isLt _), hpc, hstack, hmem, fun hcompletes => ?_⟩
  by_contra hge
  exact (completes_iff _).1 hcompletes _ (step_of_ge _ (by omega))

end Sys2Proof.Machine
end

section
/-! Arithmetic on registers (`41_load_and_alu.md` section 3): O19 to O22. -/

namespace Sys2Proof.Machine

open Sys2Proof.Safety

theorem setsOne_of_toNat (s : State) (x : Nibble) {v : Byte} {n : Nat} (h : v.toNat = n) :
    setsOne x n s (s.writeV x v).advance := h ▸ setsOne_writeV s x v

theorem setsFlagged_of_iff (s : State) (x : Nibble) {r : Byte × Bool} {n : Nat} {f : Prop} (hn : r.1.toNat = n)
    (hf : r.2 = true ↔ f) : setsFlagged x n f s (s.writeFlagged x r).advance := by
  rw [← hn, ← propext hf]
  exact setsFlagged_writeFlagged s x r

/-- Settles O19: each form writes one register; the value's number is the same operation on numbers. -/
theorem copyAndLogic : Obligations.CopyAndLogic := by
  refine ⟨encoded_row 9, encoded_row 10, encoded_row 11, encoded_row 12, fun s x y => ⟨?_, ?_, ?_, ?_⟩⟩
  · exact ⟨_, exec_ldVxVy x y s, setsOne_writeV s x (s.readV y)⟩
  · exact ⟨_, exec_orVxVy x y s, setsOne_of_toNat s x (BitVec.toNat_or ..)⟩
  · exact ⟨_, exec_andVxVy x y s, setsOne_of_toNat s x (BitVec.toNat_and ..)⟩
  · exact ⟨_, exec_xorVxVy x y s, setsOne_of_toNat s x (BitVec.toNat_xor ..)⟩

/-- Settles O20: the result is the sum taken mod 256, and the flag is the comparison itself. -/
theorem addWritesCarry : Obligations.AddWritesCarry :=
  ⟨encoded_row 13, fun s x y =>
    ⟨_, exec_addVxVy x y s, setsFlagged_of_iff s x (BitVec.toNat_ofNat ..) decide_eq_true_iff⟩⟩

/-- The difference of two bytes, reduced mod 256 from below 0 as from above. -/
theorem subNotBorrow_toNat (a b : Byte) : (subNotBorrow a b).1.toNat = (a.toNat + 256 - b.toNat) % 256 := by
  simp only [subNotBorrow, BitVec.toNat_ofInt]
  omega

/-- Settles O21: SUBN is SUB with the operands exchanged. -/
theorem subtractWritesNotBorrow : Obligations.SubtractWritesNotBorrow := by
  refine ⟨encoded_row 14, encoded_row 16, fun s x y => ⟨?_, ?_⟩⟩
  · exact ⟨_, exec_subVxVy x y s, setsFlagged_of_iff s x (subNotBorrow_toNat ..) decide_eq_true_iff⟩
  · exact ⟨_, exec_subnVxVy x y s, setsFlagged_of_iff s x (subNotBorrow_toNat ..) decide_eq_true_iff⟩

theorem shiftRightOut_toNat (a : Byte) : (shiftRightOut a).1.toNat = a.toNat / 2 := by
  rw [shiftRightOut, BitVec.toNat_ushiftRight, Nat.shiftRight_one]

theorem shiftRightOut_flag (a : Byte) : (shiftRightOut a).2 = true ↔ a.toNat % 2 = 1 := by
  rw [shiftRightOut, BitVec.getLsbD, Nat.testBit_zero, decide_eq_true_iff]

theorem shiftLeftOut_toNat (a : Byte) : (shiftLeftOut a).1.toNat = a.toNat * 2 % 256 := by
  rw [shiftLeftOut, BitVec.toNat_shiftLeft, Nat.shiftLeft_eq]

/-- Bit 7 is the bit of weight 128, the highest of a byte. -/
theorem shiftLeftOut_flag (a : Byte) : (shiftLeftOut a).2 = true ↔ 128 ≤ a.toNat := by
  rw [shiftLeftOut, BitVec.getLsbD, Nat.testBit_eq_decide_div_mod_eq, decide_eq_true_iff]
  omega

/-- Settles O22: the shift is by one and the flag is the bit that leaves; `y` is not read. -/
theorem shiftsWriteBitOut : Obligations.ShiftsWriteBitOut := by
  refine ⟨encoded_row 15, encoded_row 17, fun s x y => ⟨?_, ?_⟩⟩
  · exact ⟨_, exec_shrVx x y s, setsFlagged_of_iff s x (shiftRightOut_toNat _) (shiftRightOut_flag _)⟩
  · exact ⟨_, exec_shlVx x y s, setsFlagged_of_iff s x (shiftLeftOut_toNat _) (shiftLeftOut_flag _)⟩

end Sys2Proof.Machine
end

section
/-! The index register and the moves to and from memory (`42_index_and_memory.md`, `20_memory.md` section 7): O24 to O27,
O30, O31. -/

namespace Sys2Proof.Machine

open Sys2Proof.Safety

/-! ### The index register (R171, R172) -/

theorem glyphAddress_toNat (v : Byte) : (glyphAddress v).toNat = 0x50 + 5 * v.toNat := by
  rw [glyphAddress, BitVec.toNat_ofNat, Nat.mod_eq_of_lt]
  omega

/-- Settles O24: the sum is one of 16-bit words, and the glyph's address never wraps. -/
theorem indexAddAndGlyph : Obligations.IndexAddAndGlyph := by
  refine ⟨encoded_row 29, encoded_row 30, fun s x => ⟨⟨_, exec_addIVx x s, rfl, ?_⟩, _, exec_ldFVx x s, rfl, ?_⟩⟩
  · rw [State.advance_I, State.setI_I, BitVec.toNat_add, zextByte_toNat]
  · exact glyphAddress_toNat (s.readV x)

/-! ### Stores (R173, R174) -/

/-- Settles O25: the three digits are bytes, each at its place in the list that the form stores. -/
theorem decimalStore : Obligations.DecimalStore := by
  refine ⟨encoded_row 31, fun s x => ⟨_, exec_ldBVx x s, rfl, fun hwf => ?_, fun a ha => ?_⟩⟩
  · have hdigit := s.load_storeList_get hwf s.I.toNat (bcdDigits (s.readV x)) (by decide : 3 ≤ 4096)
    have hx := (s.readV x).isLt
    refine ⟨(congrArg BitVec.toNat (hdigit 0 (by decide : 0 < 3))).trans ?_,
      (congrArg BitVec.toNat (hdigit 1 (by decide : 1 < 3))).trans ?_,
      (congrArg BitVec.toNat (hdigit 2 (by decide : 2 < 3))).trans ?_⟩
    all_goals exact Nat.mod_eq_of_lt (by omega)
  · exact s.load_storeList_other s.I.toNat (bcdDigits (s.readV x)) a ha

/-- Settles O26: register `r` is at place `r` of the block stored, which has `x + 1` bytes. -/
theorem blockStore : Obligations.BlockStore := by
  refine ⟨encoded_row 32, fun s x => ⟨_, exec_ldIndVx x s, rfl, fun hwf r hr => ?_, fun a ha => ?_⟩⟩
  · have hlen := s.regBlock_length x
    have hr' : r.toNat < (s.regBlock x).length := by omega
    refine (s.load_storeList_get hwf s.I.toNat (s.regBlock x) (by omega) r.toNat hr').trans ?_
    rw [State.regBlock_get, BitVec.ofNat_toNat, BitVec.setWidth_eq]
  · refine s.load_storeList_other s.I.toNat (s.regBlock x) a fun k hk => ha k ?_
    rw [State.regBlock_length] at hk
    omega

/-! ### Loads (R175) -/

/-- Settles O27: the block loaded is registers `0 .. x`, each from its own address. -/
theorem blockLoad : Obligations.BlockLoad := by
  refine ⟨encoded_row 33, fun s x => ⟨_, exec_ldVxInd x s, exec_ldVxInd_next (exec_ldVxInd x s), fun r => ?_⟩⟩
  have hx : x.toNat + 1 ≤ 16 := x.isLt
  rw [State.readV_advance, State.readV_loadBlock _ _ _ hx, State.load_mod]
  exact if_congr Nat.lt_succ_iff rfl rfl

/-- Settles O31: the storing forms are LD B and LD [I], which write memory alone; what LD Vx,[I] loads is said by O27 in
terms of registers, `I` and memory. -/
theorem onlyMemoryHasAddresses : Obligations.OnlyMemoryHasAddresses := by
  refine ⟨fun i s hi => ?_, fun x s s' hV hload hI => ?_⟩
  · cases i
    case ldBVx x => exact ⟨_, exec_ldBVx x s, rfl⟩
    case ldIndVx x => exact ⟨_, exec_ldIndVx x s, rfl⟩
    all_goals exact absurd hi (Nat.lt_irrefl 0)
  · obtain ⟨t, ht, -, hreg⟩ := blockLoad.2 s x
    obtain ⟨t', ht', -, hreg'⟩ := blockLoad.2 s' x
    rw [ht, ht']
    refine State.V_ext fun r => ?_
    rw [hreg, hreg', hload, hI, State.readV, State.readV, hV]

/-! ### Self-modifying code (R76) -/

/-- Settles O30: the stored `V0` and `V1` are the two bytes that the next fetch reads, 2 above the store. -/
theorem storeSeenByNextFetch : Obligations.StoreSeenByNextFetch := by
  intro s x hwf hpc hx hd hI
  obtain ⟨t, ht, hframe, hstored, -⟩ := blockStore.2 s x
  have hstep : step s = .next t := (step_of_instr s (s.fetch_of_lt (by omega)) hd).trans ht
  have htpc : t.pc.toNat = s.pc.toNat + 2 := by
    rw [hframe]
    bv_omega
  have h0 : t.load t.pc.toNat = s.readV 0x0#4 := by
    rw [htpc, ← hI, State.load_mod]
    exact hstored hwf 0x0#4 (by simp)
  have h1 : t.load (t.pc.toNat + 1) = s.readV 0x1#4 := by
    rw [htpc, ← hI, ← State.load_mod, Nat.mod_add_mod, State.load_mod]
    exact hstored hwf 0x1#4 hx
  have hfetch : t.fetch = some (wordOfBytes (s.readV 0x0#4) (s.readV 0x1#4)) := by
    rw [t.fetch_of_lt (by omega), h0, h1]
  exact ⟨t, hstep, hfetch, fun i hi => step_of_instr t hfetch hi⟩

end Sys2Proof.Machine
end

section
/-! The keypad and the timers (`45_keypad_and_timers.md`), and the host's calls (`60_exceptions.md` section 4): O37, O39,
O41 to O43. -/

namespace Sys2Proof.Machine

open Sys2Proof.Safety

/-! ### Keypad skips (R210, R211) and timer moves (R212, R214, R215) -/

theorem keyIndex_toNat (v : Byte) : (keyIndex v).toNat = v.toNat % 16 := BitVec.extractLsb'_toNat ..

/-- Settles O37: both skips test the key of the low nibble of `Vx`. -/
theorem keySkips : Obligations.KeySkips := by
  refine ⟨encoded_row 23, encoded_row 24, fun s x k hk => ?_⟩
  have hkey : keyIndex (s.readV x) = k := BitVec.eq_of_toNat_eq ((keyIndex_toNat _).trans hk.symm)
  rw [exec_skpVx, exec_sknpVx, execSkpVx, execSknpVx, hkey, State.skipIf_eq, State.skipIf_eq]
  cases s.key k <;> exact ⟨rfl, rfl⟩

/-- Settles O39: each form is one copy. -/
theorem timerInstructions : Obligations.TimerInstructions := by
  refine ⟨encoded_row 25, encoded_row 27, encoded_row 28, fun s x => ⟨?_, rfl, ?_⟩⟩
  · exact ⟨_, exec_ldVxDT x s, setsOne_writeV s x s.DT⟩
  · refine ⟨_, exec_ldSTVx x s, rfl, ?_⟩
    simp [State.soundPlaying, BitVec.toNat_eq]

/-! ### The host's calls (R243, R244) -/

/-- Settles O42: an index in range is the number of a key. -/
theorem setKeySetsOneKey : Obligations.SetKeySetsOneKey := by
  refine fun s index pressed => ⟨fun hrange => ?_, fun hout => ?_⟩
  · obtain ⟨k, rfl⟩ : ∃ k : Nibble, (k.toNat : Int) = index := ⟨BitVec.ofNat 4 index.toNat, by simp; omega⟩
    refine ⟨_, s.apply_setKey k pressed, rfl, fun j => ?_⟩
    have hkey := s.key_apply_setKey k j pressed
    rw [s.apply_setKey] at hkey
    simpa only [Int.natCast_inj, BitVec.toNat_inj] using hkey
  · have hreject : s.setKey index pressed = .error .invalidKeyIndex := dif_neg (by omega)
    exact congrArg s.settle hreject

/-- Settles O43: 3584 bytes from 0x200 end at 0xFFF, so no address wraps. -/
theorem loadProgramPlacesBytes : Obligations.LoadProgramPlacesBytes := by
  refine fun s bytes => ⟨fun hlen => ?_, fun hlong => ?_⟩
  · have haccept : s.loadProgram bytes = .ok (s.storeList 0x200 bytes) := if_neg (by omega)
    refine ⟨_, congrArg s.settle haccept, rfl, fun hwf i hi => ?_, fun a ha hout => ?_⟩
    · exact s.load_storeList_get hwf 0x200 bytes (by omega) i hi
    · exact s.load_storeList_other 0x200 bytes a fun k hk => by omega
  · have hreject : s.loadProgram bytes = .error .programTooLarge := if_pos hlong
    exact congrArg s.settle hreject

theorem State.apply_loadProgram_eq (s : State) (bytes : List Byte) :
    (s.apply (.loadProgram bytes)).1 = { s with MEM := (s.apply (.loadProgram bytes)).1.MEM } := by
  by_cases h : bytes.length ≤ 3584
  · obtain ⟨t, happly, ht, -⟩ := (loadProgramPlacesBytes s bytes).1 h
    rwa [happly]
  · rw [(loadProgramPlacesBytes s bytes).2 (by omega)]

theorem State.apply_setKey_eq (s : State) (index : Int) (pressed : Bool) :
    (s.apply (.setKey index pressed)).1 = { s with K := (s.apply (.setKey index pressed)).1.K } := by
  by_cases h : 0 ≤ index ∧ index < 16
  · obtain ⟨t, happly, ht, -⟩ := (setKeySetsOneKey s index pressed).1 h
    rwa [happly]
  · rw [(setKeySetsOneKey s index pressed).2 (by omega)]

/-! ### The delay timer over a run (R217) -/

theorem exec_next_DT {i : Instr} {s t : State} (h : exec i s = .next t) (hi : ∀ x, i ≠ .ldDTVx x) : t.DT = s.DT := by
  obtain ⟨-, -, -, hDT, -⟩ := specialRegisterFrame i s t h
  exact hDT hi

/-- No event but a step that executes an LD DT,Vx raises the delay timer. -/
theorem State.apply_DT_le (s : State) (e : Event)
    (h : e = .step → ∀ x iw, s.fetch = some iw → decodeWord iw ≠ .instr (.ldDTVx x)) :
    (s.apply e).1.DT.toNat ≤ s.DT.toNat := by
  cases e with
  | reset => exact Nat.zero_le _
  | loadProgram bytes => rw [State.apply_loadProgram_eq]
  | setKey index pressed => rw [State.apply_setKey_eq]
  | timerTick => exact (tickDown_toNat s.DT).trans_le (Nat.sub_le _ _)
  | step =>
    obtain hsame | hstep := s.apply_step_cases
    · rw [hsame]
    · obtain ⟨-, ⟨iw, i, hf, hd, hexec⟩ | hnop⟩ := step_next_cases hstep
      · rw [exec_next_DT hexec fun x hi => h rfl x iw hf (hi ▸ hd)]
      · rw [hnop, State.advance_DT]

/-- Settles O41: event by event; a step's premise is that of the run with the events before it. -/
theorem delayTimerNeverRises : Obligations.DelayTimerNeverRises := by
  intro es
  induction es with
  | nil => exact fun s _ => le_rfl
  | cons e es ih =>
    intro s h
    have hrest : ((s.apply e).1.applyAll es).DT.toNat ≤ (s.apply e).1.DT.toNat := by
      refine ih _ fun before after x iw hes => ?_
      exact h (e :: before) after x iw (congrArg (e :: ·) hes)
    have hfirst : (s.apply e).1.DT.toNat ≤ s.DT.toNat := by
      refine s.apply_DT_le e fun he x iw => ?_
      exact h [] es x iw (congrArg (· :: es) he)
    exact hrest.trans hfirst

end Sys2Proof.Machine
end

section
/-! Reset, the parameter `FONT`, and the end of a run (`70_reset_and_hazards.md`, `10_state.md` R36, R38,
`60_exceptions.md` R254): O44, O45, O55, O56. -/

namespace Sys2Proof.Machine

open Sys2Proof.Safety

/-! ### Reset (R38, R270, R271) -/

theorem State.load_of_MEM_nil {s : State} (h : s.MEM = []) {a : Nat} (ha : a < 4096) :
    s.load a = resetByte s.FONT a := by
  rw [State.load, memRead, h, Nat.mod_eq_of_lt ha]
  rfl

/-- Settles O44: every field but memory is written out in the reset state; an empty memory reads as its reset bytes. -/
theorem resetValues : Obligations.ResetValues := by
  intro s
  have hload {a : Nat} (ha : a < 4096) : s.resetEvent.load a = resetByte s.FONT a := State.load_of_MEM_nil rfl ha
  refine ⟨s.resetEvent, rfl, fun r => Vector.getElem_replicate _, rfl, rfl, rfl, fun k => Vector.getElem_replicate _,
    rfl, rfl, fun k => Vector.getElem_replicate _, State.pixel_of_blank rfl, fun a => ?_, fun a ha hout => ?_, rfl, rfl⟩
  · rw [hload (by omega)]
    exact resetByte_font a.val a.isLt
  · rw [hload ha]
    exact resetByte_other a hout

theorem State.apply_FONT (s : State) (e : Event) : (s.apply e).1.FONT = s.FONT := by
  cases e with
  | reset => rfl
  | loadProgram bytes => rw [State.apply_loadProgram_eq]
  | setKey index pressed => rw [State.apply_setKey_eq]
  | timerTick => rfl
  | step =>
    obtain hsame | hstep := s.apply_step_cases
    · rw [hsame]
    · obtain ⟨-, ⟨iw, i, -, -, hexec⟩ | hnop⟩ := step_next_cases hstep
      · exact exec_next_FONT hexec
      · rw [hnop, State.advance_FONT]

theorem State.applyAll_FONT (s : State) (es : List Event) : (s.applyAll es).FONT = s.FONT := by
  induction es generalizing s with
  | nil => rfl
  | cons e es ih => exact (ih _).trans (s.apply_FONT e)

theorem State.applyAll_append_reset (s : State) (es : List Event) :
    s.applyAll (es ++ [.reset]) = { State.resetWith s.FONT with draws := (s.applyAll es).draws } := by
  rw [State.applyAll_append]
  show (s.applyAll es).resetEvent = _
  rw [State.resetEvent, State.applyAll_FONT]

/-- Settles O45: Reset reads `FONT`, which no event changes, and the count of values taken. -/
theorem resetForgets : Obligations.ResetForgets := by
  refine fun s es => ⟨_, s.applyAll_append_reset es, ?_, rfl⟩
  have hsplit : es ++ [Event.reset, .reset] = (es ++ [.reset]) ++ [.reset] := by simp
  rw [hsplit, State.applyAll_append, s.applyAll_append_reset]
  rfl

/-! ### The parameter `FONT` (R5, R36) -/

/-- Settles O56: no event changes `FONT`; after Reset memory is empty, and reads it at the address LD F computes. -/
theorem fontIsParameter : Obligations.FontIsParameter := by
  refine fun FONT es => ⟨(State.resetWith FONT).applyAll_FONT es, fun d j x => ?_⟩
  have hglyph : ((State.resetWith FONT).applyAll (es ++ [.reset])).load (0x50 + 5 * d.val + j.val) =
      FONT[5 * d.val + j.val] := by
    rw [State.applyAll_append_reset, State.load_of_MEM_nil rfl (by omega), Nat.add_assoc]
    exact resetByte_font (5 * d.val + j.val) (by omega)
  refine ⟨hglyph, _, exec_ldFVx _ _, ?_⟩
  have hd : (BitVec.ofNat 8 d.val).toNat = d.val := Nat.mod_eq_of_lt (by omega)
  rw [State.advance_I, State.setI_I, State.readV_writeV, if_pos rfl, glyphAddress_toNat, hd]
  exact hglyph

/-! ### The end of a run (R254) -/

theorem endOfRun_iff (s : State) : endOfRun s = true ↔ s.fetch = some (wordNnn 0x1#4 (s.pc.setWidth 12)) := beq_iff_eq

/-- The jump at the end of a run goes where it stands: `pc` is below 0xFFF, so its low twelve bits are all of it. -/
theorem step_of_endOfRun {s : State} (h : endOfRun s = true) : step s = .next s := by
  have hfetch := (endOfRun_iff s).1 h
  have hlt : s.pc.toNat < 0xFFF := by
    by_contra hge
    cases hfetch.symm.trans (s.fetch_eq_none.2 (by omega))
  have hpc : zextNnn (s.pc.setWidth 12) = s.pc := by
    apply BitVec.eq_of_toNat_eq
    rw [zextNnn_toNat, BitVec.toNat_setWidth, Nat.mod_eq_of_lt (by omega)]
  have hdecode := decodeWord_encode (.jp (s.pc.setWidth 12))
  rw [step_of_instr s hfetch hdecode, exec_jp, execJp, hpc]
  rfl

theorem State.apply_step_of_endOfRun {s : State} (h : endOfRun s = true) : (s.apply .step).1 = s := by
  rw [State.apply_step_of_next (step_of_endOfRun h)]

/-- Settles O55: a step is a fixed point; ticks and keys change neither memory nor `pc`. -/
theorem endOfRunIsStable : Obligations.EndOfRunIsStable := by
  refine fun s hend => ⟨State.applyAll_replicate_of_fixed (State.apply_step_of_endOfRun hend),
    ⟨s, step_of_endOfRun hend⟩, fun es hes => ?_⟩
  induction es generalizing s with
  | nil => exact ⟨hend, rfl⟩
  | cons e es ih =>
    obtain ⟨he, hes⟩ := List.forall_mem_cons.1 hes
    obtain ⟨hend', hpc⟩ : endOfRun (s.apply e).1 = true ∧ (s.apply e).1.pc = s.pc := by
      obtain rfl | rfl | ⟨k, p, rfl⟩ := he
      · rw [State.apply_step_of_endOfRun hend]
        exact ⟨hend, rfl⟩
      · exact ⟨hend, rfl⟩
      · rw [State.apply_setKey_eq]
        exact ⟨hend, rfl⟩
    obtain ⟨hendAll, hpcAll⟩ := ih _ hend' hes
    exact ⟨hendAll, hpcAll.trans hpc⟩

end Sys2Proof.Machine
end

section
/-! What an instruction may depend on (`10_state.md` R22, `20_memory.md` R70, `43_random.md` R190, R191): O32, O33, O47, O49. -/

namespace Sys2Proof.Machine

open Sys2Proof.Safety

/-! ### Two runs side by side -/

/-- `t` and `t'`, reached from `s` and `s'`, agree on the special registers, the stack, the keypad and the framebuffer;
and each general register holds the same value in both or has been left alone in both. -/
structure Alike (s s' t t' : State) : Prop where
  I : t'.I = t.I
  pc : t'.pc = t.pc
  S : t'.S = t.S
  sp : t'.sp = t.sp
  DT : t'.DT = t.DT
  ST : t'.ST = t.ST
  K : t'.K = t.K
  FB : t'.FB = t.FB
  V : ∀ r, t'.readV r = t.readV r ∨ (t'.readV r = s'.readV r ∧ t.readV r = s.readV r)

namespace Alike

variable {s s' t t' : State} (h : Alike s s' t t')
include h

/-- The fields that `Alike` leaves open are the only ones in which the two states differ. -/
theorem eq : t' = { t with V := t'.V, MEM := t'.MEM, FONT := t'.FONT, draws := t'.draws } := by
  rw [← h.I, ← h.pc, ← h.S, ← h.sp, ← h.DT, ← h.ST, ← h.K, ← h.FB]

theorem setPc (target : Word) : Alike s s' (t.setPc target) (t'.setPc target) := { h with pc := rfl }

theorem advance : Alike s s' t.advance t'.advance := by
  rw [State.advance, State.advance, h.pc]
  exact h.setPc _

theorem skipIf {c c' : Bool} (hc : c' = c) : Alike s s' (t.skipIf c) (t'.skipIf c') := by
  subst hc
  cases c'
  · exact h.advance
  · rw [State.skipIf, State.skipIf, h.pc]
    exact h.setPc _

theorem writeV (x : Nibble) {v v' : Byte} (hv : v' = v) : Alike s s' (t.writeV x v) (t'.writeV x v') := by
  refine { h with V := fun r => ?_ }
  rw [State.readV_writeV, State.readV_writeV, hv]
  by_cases hr : r = x
  · exact .inl (by rw [if_pos hr, if_pos hr])
  · rw [if_neg hr, if_neg hr]
    exact h.V r

theorem writeFlagged (x : Nibble) {p p' : Byte × Bool} (hp : p' = p) :
    Alike s s' (t.writeFlagged x p) (t'.writeFlagged x p') := by
  subst hp
  exact (h.writeV 0xF#4 rfl).writeV x rfl

theorem setI {v v' : Word} (hv : v' = v) : Alike s s' (t.setI v) (t'.setI v') := { h with I := hv }

theorem setDT {v v' : Byte} (hv : v' = v) : Alike s s' (t.setDT v) (t'.setDT v') := { h with DT := hv }

theorem setST {v v' : Byte} (hv : v' = v) : Alike s s' (t.setST v) (t'.setST v') := { h with ST := hv }

theorem setFB {v v' : Vector PixelRow 32} (hv : v' = v) : Alike s s' (t.setFB v) (t'.setFB v') := { h with FB := hv }

theorem storeList (a a' : Nat) (vs vs' : List Byte) : Alike s s' (t.storeList a vs) (t'.storeList a' vs') := { h with }

theorem draw : Alike s s' t.draw.2 t'.draw.2 := { h with }

theorem base : t'.base = t.base := congrArg BitVec.toNat h.I

theorem key (k : Nibble) : t'.key k = t.key k := by rw [State.key, State.key, h.K]

theorem firstKey : t'.firstKey = t.firstKey := by rw [State.firstKey, State.firstKey, h.K]

theorem loadBlock (a k : Nat) (hload : ∀ j, j < k → t'.load (a + j) = t.load (a + j)) :
    Alike s s' (t.loadBlock a k) (t'.loadBlock a k) := by
  induction k with
  | zero => exact h
  | succ k ih => exact (ih fun j hj => hload j (by omega)).writeV _ (hload k (by omega))

theorem drawRows (x0 y0 k : Nat) (hload : ∀ j, j < k → t'.load (t.base + j) = t.load (t.base + j)) :
    t'.drawRows x0 y0 k = t.drawRows x0 y0 k := by
  induction k with
  | zero => rw [State.drawRows, State.drawRows, h.FB]
  | succ k ih => rw [State.drawRows, State.drawRows, h.base, hload k (by omega), ih fun j hj => hload j (by omega)]

end Alike

/-- An instruction's outcome is a function of the special registers, the stack, the keypad and the framebuffer, the general
registers and bytes it is listed to read, and, for RND, the value drawn. -/
theorem exec_alike (i : Instr) {s s' : State} (h : Alike s s' s s') (hV : ∀ r, readsV i r = true → s'.readV r = s.readV r)
    (hload : ∀ k, k < bytesRead i → s'.load (s.base + k) = s.load (s.base + k))
    (hdraws : draws i = true → s'.draws = s.draws) :
    sameOutcome (Alike s s') (exec i s) (exec i s') := by
  cases i
  case cls => exact (h.setFB rfl).advance
  case ret =>
    rw [exec_ret, exec_ret]
    by_cases h0 : s.sp.val = 0
    · rw [execRet_of_empty s h0, execRet_of_empty s' (by rw [h.sp, h0])]
      rfl
    · rw [execRet_of_pos s h0, execRet_of_pos s' (by rwa [h.sp])]
      exact { h with sp := by simp only [h.sp], pc := by simp only [h.sp, h.S] }
  case call nnn =>
    rw [exec_call, exec_call]
    by_cases hlt : s.sp.val < 16
    · rw [execCall_of_lt s nnn hlt, execCall_of_lt s' nnn (by rwa [h.sp])]
      exact { h with sp := by simp only [h.sp], S := by simp only [h.sp, h.S, h.pc], pc := rfl }
    · rw [execCall_of_full s nnn (by omega), execCall_of_full s' nnn (by rw [h.sp]; omega)]
      rfl
  case jp nnn => exact h.setPc _
  case jpV0Nnn nnn =>
    have h0 := hV 0x0#4 rfl
    rw [exec_jpV0Nnn, exec_jpV0Nnn, execJpV0Nnn, execJpV0Nnn, h0]
    exact h.setPc _
  case seVxKk x kk | sneVxKk x kk =>
    have hx := hV x (beq_self_eq_true x)
    exact h.skipIf (by rw [hx])
  case seVxVy x y | sneVxVy x y =>
    have hx := hV x (by simp [readsV])
    have hy := hV y (by simp [readsV])
    exact h.skipIf (by rw [hx, hy])
  case skpVx x | sknpVx x =>
    have hx := hV x (beq_self_eq_true x)
    exact h.skipIf (by rw [hx, h.key])
  case ldVxKk x kk => exact (h.writeV x rfl).advance
  case addVxKk x kk =>
    have hx := hV x (beq_self_eq_true x)
    exact (h.writeV x (by rw [hx])).advance
  case ldVxVy x y => exact (h.writeV x (hV y (beq_self_eq_true y))).advance
  case orVxVy x y | andVxVy x y | xorVxVy x y =>
    have hx := hV x (by simp [readsV])
    have hy := hV y (by simp [readsV])
    exact (h.writeV x (by rw [hx, hy])).advance
  case addVxVy x y | subVxVy x y | subnVxVy x y =>
    have hx := hV x (by simp [readsV])
    have hy := hV y (by simp [readsV])
    exact (h.writeFlagged x (by rw [hx, hy])).advance
  case shrVx x y | shlVx x y =>
    have hx := hV x (beq_self_eq_true x)
    exact (h.writeFlagged x (by rw [hx])).advance
  case ldINnn nnn => exact (h.setI rfl).advance
  case addIVx x =>
    have hx := hV x (beq_self_eq_true x)
    exact (h.setI (by rw [hx, h.I])).advance
  case ldFVx x =>
    have hx := hV x (beq_self_eq_true x)
    exact (h.setI (by rw [hx])).advance
  case rndVxKk x kk =>
    have hd := hdraws rfl
    exact (h.draw.writeV x (by rw [State.draw_value, State.draw_value, hd])).advance
  case drwVxVyN x y n =>
    have hx := hV x (by simp [readsV])
    have hy := hV y (by simp [readsV])
    have hdrawn := h.drawRows (spriteColumn (s.readV x)) (spriteRow (s.readV y)) n.toNat hload
    rw [exec_drwVxVyN, exec_drwVxVyN, execDrwVxVyN, execDrwVxVyN, hx, hy, hdrawn]
    exact ((h.setFB rfl).writeV 0xF#4 rfl).advance
  case ldVxDT x => exact (h.writeV x h.DT).advance
  case ldVxK x =>
    rw [exec_ldVxK, exec_ldVxK, execLdVxK, execLdVxK, h.firstKey]
    cases s.firstKey with
    | none => exact h
    | some k => exact (h.writeV x rfl).advance
  case ldDTVx x => exact (h.setDT (hV x (beq_self_eq_true x))).advance
  case ldSTVx x => exact (h.setST (hV x (beq_self_eq_true x))).advance
  case ldBVx x => exact (h.storeList ..).advance
  case ldIndVx x => exact (h.storeList ..).advance
  case ldVxInd x =>
    rw [exec_ldVxInd, exec_ldVxInd, execLdVxInd, execLdVxInd, h.base]
    exact (h.loadBlock s.base (x.toNat + 1) hload).advance

/-- A relation between the outcomes may use that they are outcomes. -/
theorem sameOutcome_mono {R R' : State → State → Prop} {o o' : Host.Outcome State Fault Refusal}
    (h : sameOutcome R o o') (hR : ∀ t t', o = .next t → o' = .next t' → R t t' → R' t t') : sameOutcome R' o o' := by
  match o, o', h with
  | .next t, .next t', h => exact hR t t' rfl rfl h
  | .fault f, .fault g, h => exact h
  | .refused p, .refused q, h => exact h

/-- The bytes an instruction stores are a function of the general registers it is listed to read. -/
theorem storedBytes_congr (i : Instr) {s s' : State} (hV : ∀ r, readsV i r = true → s'.readV r = s.readV r) :
    storedBytes i s' = storedBytes i s := by
  cases i
  case ldBVx x => exact congrArg bcdDigits (hV x (beq_self_eq_true x))
  case ldIndVx x =>
    show s'.regBlock x = s.regBlock x
    refine List.ext_getElem ((s'.regBlock_length x).trans (s.regBlock_length x).symm) fun k hk' hk => ?_
    rw [State.regBlock_get, State.regBlock_get]
    refine hV _ (decide_eq_true ?_)
    rw [State.regBlock_length] at hk
    rw [BitVec.toNat_ofNat, Nat.mod_eq_of_lt] <;> omega
  all_goals rfl

/-! ### The general registers read (R22) -/

theorem exec_next_draws {i : Instr} {s t : State} (h : exec i s = .next t) :
    t.draws = if draws i then s.draws + 1 else s.draws := by
  cases hi : draws i
  · obtain ⟨-, -, -, -, -, -, -, -, hdraws⟩ := specialRegisterFrame i s t h
    exact hdraws hi
  · cases i <;> cases hi
    obtain rfl := (Host.Outcome.next.inj h).symm
    rfl

/-- Settles O47: besides registers, the two outcomes agree by `exec_alike`, and in memory for the same bytes are stored. -/
theorem registerReadsAreTabled : Obligations.RegisterReadsAreTabled := by
  intro i s s' hs hV
  obtain ⟨W, rfl⟩ : ∃ W, s' = { s with V := W } := ⟨_, hs⟩
  have hstart : Alike s { s with V := W } s { s with V := W } :=
    ⟨rfl, rfl, rfl, rfl, rfl, rfl, rfl, rfl, fun r => .inr ⟨rfl, rfl⟩⟩
  refine sameOutcome_mono (exec_alike i hstart hV (fun _ _ => rfl) fun _ => rfl) fun t t' ht ht' halike => ⟨?_, halike.V⟩
  have hMEM : t'.MEM = t.MEM := by
    rw [exec_next_MEM ht', exec_next_MEM ht, storedBytes_congr i hV]
    rfl
  have hFONT : t'.FONT = t.FONT := (exec_next_FONT ht').trans (exec_next_FONT ht).symm
  have hdraws : t'.draws = t.draws := (exec_next_draws ht').trans (exec_next_draws ht).symm
  exact halike.eq.trans (by rw [hMEM, hFONT, hdraws])

/-! ### The bytes read (R70) -/

/-- From states with the same registers the general registers end the same. -/
theorem Alike.V_eq {s s' t t' : State} (h : Alike s s' t t') (hV : s'.V = s.V) : t'.V = t.V := by
  refine State.V_ext fun r => ?_
  obtain hr | ⟨hr', hr⟩ := h.V r
  · exact hr
  · rw [hr', hr, State.readV, State.readV, hV]

/-- The same bytes stored over two canonical memories: each address reads alike, or as before in both. -/
theorem State.load_storeList_alike (s s' : State) (hs : s.MEM.wf s.FONT = true) (hs' : s'.MEM.wf s'.FONT = true) (b : Nat)
    (vs : List Byte) (hlen : vs.length ≤ 4096) (a : Nat) :
    (s'.storeList b vs).load a = (s.storeList b vs).load a ∨
      ((s'.storeList b vs).load a = s'.load a ∧ (s.storeList b vs).load a = s.load a) := by
  by_cases ha : ∃ k, k < vs.length ∧ (b + k) % 4096 = a % 4096
  · obtain ⟨k, hk, hka⟩ := ha
    left
    rw [← State.load_mod _ a, ← State.load_mod _ a, ← hka, State.load_mod, State.load_mod,
      State.load_storeList_get s' hs' b vs hlen k hk, State.load_storeList_get s hs b vs hlen k hk]
  · have hout : ∀ k, k < vs.length → (b + k) % 4096 ≠ a % 4096 := fun k hk hka => ha ⟨k, hk, hka⟩
    exact .inr ⟨s'.load_storeList_other b vs a hout, s.load_storeList_other b vs a hout⟩

/-- Settles O49: besides memory and `FONT` the two outcomes agree by `exec_alike`; the same bytes are stored over both
memories. -/
theorem memoryReadsAreTabled : Obligations.MemoryReadsAreTabled := by
  intro i s s' hs hload
  obtain ⟨M, F, rfl⟩ : ∃ M F, s' = { s with MEM := M, FONT := F } := ⟨_, _, hs⟩
  have hstart : Alike s { s with MEM := M, FONT := F } s { s with MEM := M, FONT := F } :=
    ⟨rfl, rfl, rfl, rfl, rfl, rfl, rfl, rfl, fun r => .inl rfl⟩
  refine sameOutcome_mono (exec_alike i hstart (fun _ _ => rfl) hload fun _ => rfl) fun t t' ht ht' halike =>
    ⟨?_, exec_next_FONT ht, fun hwf hwf' a => ?_⟩
  · have hV : t'.V = t.V := halike.V_eq rfl
    have hdraws : t'.draws = t.draws := (exec_next_draws ht').trans (exec_next_draws ht).symm
    exact halike.eq.trans (by rw [hV, hdraws, exec_next_FONT ht'])
  · have hlen : (storedBytes i s).length ≤ 4096 := by
      rw [storedBytes_length]
      cases i <;> simp only [bytesStored] <;> omega
    have hbytes : storedBytes i { s with MEM := M, FONT := F } = storedBytes i s := storedBytes_congr i fun _ _ => rfl
    rw [exec_next_load ht', exec_next_load ht, hbytes]
    exact State.load_storeList_alike s _ hwf hwf' s.base _ hlen a

/-! ### The random source (R190, R191) -/

/-- Settles O32: the value drawn, masked, goes to `Vx`; a bit of an `and` is off where the mask's is. -/
theorem randomAndMask : Obligations.RandomAndMask := by
  refine ⟨encoded_row 21, fun s x kk => ⟨_, exec_rndVxKk x kk s, rfl, ?_, fun r hr => ?_, fun b hb => ?_⟩⟩
  · simp
  · simp [hr]
  · simp [hb]

/-- Settles O33: the count is a field that only RND writes, and `exec_alike` reads it for RND alone. -/
theorem onlyRandomDraws : Obligations.OnlyRandomDraws := by
  refine ⟨fun i s t => exec_next_draws, fun i s d hi => ?_, fun s e he => ?_⟩
  · have hstart : Alike s { s with draws := d } s { s with draws := d } :=
      ⟨rfl, rfl, rfl, rfl, rfl, rfl, rfl, rfl, fun r => .inl rfl⟩
    have hdraws : draws i = true → ({ s with draws := d } : State).draws = s.draws := by
      rw [hi]
      nofun
    refine sameOutcome_mono (exec_alike i hstart (fun _ _ => rfl) (fun _ _ => rfl) hdraws) fun t t' ht ht' halike => ?_
    have hV : t'.V = t.V := halike.V_eq rfl
    have hbytes : storedBytes i { s with draws := d } = storedBytes i s := storedBytes_congr i fun _ _ => rfl
    have hMEM : t'.MEM = t.MEM := by
      rw [exec_next_MEM ht', exec_next_MEM ht, hbytes]
      rfl
    have hFONT : t'.FONT = t.FONT := (exec_next_FONT ht').trans (exec_next_FONT ht).symm
    have hd : t'.draws = d := by
      rw [exec_next_draws ht', hi]
      rfl
    exact halike.eq.trans (by rw [hV, hMEM, hFONT, hd])
  · cases e with
    | reset => rfl
    | loadProgram bytes => rw [State.apply_loadProgram_eq]
    | setKey index pressed => rw [State.apply_setKey_eq]
    | timerTick => rfl
    | step =>
      obtain hsame | hstep := s.apply_step_cases
      · rw [hsame]
      · exact absurd ⟨_, hstep⟩ (he rfl)

end Sys2Proof.Machine
end

section
/-! The sprite engine (`44_display.md` R195 to R200): O35, O36. -/

namespace Sys2Proof.Machine

open Sys2Proof.Safety

theorem State.pixel_setFB_drawRow (s : State) (x0 y0 r : Nat) (b : Byte) (fb : Vector PixelRow 32 × Bool) (row : Fin 32)
    (col : Fin 64) : (s.setFB (drawRow x0 y0 r b fb).1).pixel row col =
      ((s.setFB fb.1).pixel row col ^^ (decide ((y0 + r) % 32 = row.val) && (spriteMask b x0).getMsbD col.val)) := by
  simp only [State.pixel, State.setFB_FB, drawRow_row]
  split
  · next h => simp [h]
  · next h => simp [h]

theorem xor_ne_left_iff (p q : Bool) : (p ^^ q) ≠ p ↔ q = true := by
  revert p q
  decide

/-- With at most 16 rows, exactly the sprite's pixels are toggled: no two rows share a framebuffer row. -/
theorem State.pixel_drawRows (s : State) (x0 y0 : Nat) {k : Nat} (hk : k ≤ 16) (row : Fin 32) (col : Fin 64) :
    (s.setFB (s.drawRows x0 y0 k).1).pixel row col ≠ s.pixel row col ↔ drawn s x0 y0 k row col := by
  induction k with
  | zero =>
    refine ⟨fun h => absurd rfl h, ?_⟩
    rintro ⟨r, c, hr, -⟩
    omega
  | succ k ih =>
    have ih := ih (by omega)
    rw [State.drawRows, State.pixel_setFB_drawRow, drawn_succ]
    by_cases hrow : (y0 + k) % 32 = row.val
    · have hfresh := drawn_fresh s x0 y0 k (by omega) row col hrow
      have hold : (s.setFB (s.drawRows x0 y0 k).1).pixel row col = s.pixel row col := not_not.1 (mt ih.1 hfresh)
      rw [hold, xor_ne_left_iff]
      simp [hrow, hfresh]
    · simp [hrow, ih]

/-- The next row meets the framebuffer row it falls on as it was at the start. -/
theorem State.pixel_drawRows_fresh (s : State) (x0 y0 : Nat) {k : Nat} (hk : k ≤ 15) {row : Fin 32} (col : Fin 64)
    (hrow : (y0 + k) % 32 = row.val) : (s.setFB (s.drawRows x0 y0 k).1).pixel row col = s.pixel row col :=
  not_not.1 (mt (s.pixel_drawRows x0 y0 (by omega) row col).1 (drawn_fresh s x0 y0 k hk row col hrow))

/-- The collision flag: some pixel of the sprite was on (R199). -/
theorem State.drawRows_collision (s : State) (x0 y0 : Nat) {k : Nat} (hk : k ≤ 16) :
    (s.drawRows x0 y0 k).2 = true ↔ ∃ row col, drawn s x0 y0 k row col ∧ s.pixel row col = true := by
  induction k with
  | zero =>
    refine ⟨nofun, ?_⟩
    rintro ⟨row, col, ⟨r, c, hr, -⟩, -⟩
    omega
  | succ k ih =>
    have hrow : (y0 + k) % 32 < 32 := Nat.mod_lt _ (by decide)
    have hold (col : Fin 64) : ((s.drawRows x0 y0 k).1[(y0 + k) % 32]).getMsbD col.val = s.pixel ⟨_, hrow⟩ col :=
      s.pixel_drawRows_fresh x0 y0 (by omega) (row := ⟨_, hrow⟩) col rfl
    rw [State.drawRows, drawRow_collision, ih (by omega), pixelRow_ne_zero]
    simp only [BitVec.getMsbD_and, hold, Bool.and_eq_true, drawn_succ]
    constructor
    · rintro (⟨row, col, hd, hon⟩ | ⟨col, hon, hmask⟩)
      · exact ⟨row, col, .inl hd, hon⟩
      · exact ⟨_, col, .inr ⟨rfl, hmask⟩, hon⟩
    · rintro ⟨row, col, hd | ⟨hrow', hmask⟩, hon⟩
      · exact .inl ⟨row, col, hd, hon⟩
      · obtain rfl : (⟨_, hrow⟩ : Fin 32) = row := Fin.ext hrow'
        exact .inr ⟨col, hon, hmask⟩

/-- Settles O35: `n` is at most 15, so the laws of the rows drawn apply; `VF` is their collision flag. -/
theorem drawTogglesSprite : Obligations.DrawTogglesSprite := by
  refine ⟨encoded_row 22, ?_⟩
  rintro s x y n x0 y0 rfl rfl
  have hn : n.toNat ≤ 16 := n.isLt.le
  have hcollision := s.drawRows_collision (spriteColumn (s.readV x)) (spriteRow (s.readV y)) hn
  refine ⟨_, exec_drwVxVyN x y n s, rfl, fun row col => ?_, fun hon => ?_, fun hoff => ?_, fun r hr => ?_⟩
  · exact s.pixel_drawRows _ _ hn row col
  · rw [State.readV_advance, State.readV_writeV, if_pos rfl, hcollision.2 hon]
    rfl
  · have hnone : (s.drawRows (spriteColumn (s.readV x)) (spriteRow (s.readV y)) n.toNat).2 = false := by
      refine Bool.eq_false_iff.2 (mt hcollision.1 ?_)
      rintro ⟨row, col, hd, hon⟩
      cases hon.symm.trans (hoff row col hd)
    rw [State.readV_advance, State.readV_writeV, if_pos rfl, hnone]
    rfl
  · rw [State.readV_advance, State.readV_writeV, if_neg hr, State.readV_setFB]

/-! ### Drawing twice (R200) -/

theorem State.FB_ext {s t : State} (h : ∀ row col, t.pixel row col = s.pixel row col) : t.FB = s.FB :=
  Vector.ext fun i hi => BitVec.eq_of_getMsbD_eq fun j hj => h ⟨i, hi⟩ ⟨j, hj⟩

/-- What a sprite draws depends on `I` and on the bytes at it. -/
theorem drawn_congr {s t : State} (hI : t.I = s.I) (hload : ∀ a, t.load a = s.load a) (x0 y0 n : Nat) (row : Fin 32)
    (col : Fin 64) : drawn t x0 y0 n row col ↔ drawn s x0 y0 n row col := by
  simp only [drawn, hI, hload]

/-- Settles O36: the second draw toggles the same pixels, so it restores them, and it collides where the first turned a
pixel on. -/
theorem doubleDrawRestores : Obligations.DoubleDrawRestores := by
  intro s t x y n h hx hy
  obtain ⟨t', ht', hframe, htoggle, -⟩ := drawTogglesSprite.2 s x y n _ _ rfl rfl
  obtain rfl := Host.Outcome.next.inj (ht'.symm.trans h)
  obtain ⟨u, hu, -, htoggle', hcollide, hclear, -⟩ := drawTogglesSprite.2 t' x y n _ _ hx.symm hy.symm
  have hdrawn (row : Fin 32) (col : Fin 64) := drawn_congr (s := s) (t := t') (by rw [hframe]) (fun a => by rw [hframe]; rfl)
    ((s.readV x).toNat % 64) ((s.readV y).toNat % 32) n.toNat row col
  refine ⟨u, hu, State.FB_ext fun row col => ?_, ?_, fun hon => hclear fun row col hd => ?_⟩
  · have hiff : u.pixel row col ≠ t'.pixel row col ↔ t'.pixel row col ≠ s.pixel row col :=
      (htoggle' row col).trans ((hdrawn row col).trans (htoggle row col).symm)
    revert hiff
    cases u.pixel row col <;> cases t'.pixel row col <;> cases s.pixel row col <;> simp
  · rintro ⟨row, col, hoff, hon⟩
    have hne : t'.pixel row col ≠ s.pixel row col := by rw [hoff, hon]; decide
    exact hcollide ⟨row, col, (hdrawn row col).2 ((htoggle row col).1 hne), hon⟩
  · have hne := (htoggle row col).2 ((hdrawn row col).1 hd)
    refine Bool.eq_false_iff.2 fun ht => ?_
    exact hne (ht.trans (hon row col ht).symm)

end Sys2Proof.Machine
end
